-- ==== Sys2Proof/Config.lean ====
section
/-! DEFINITION. The constants of the block (00_scope.md R8), the parameters the source does not fix (R9) and
the field boundaries the host receives (30_encoding.md R84). They are configuration, not state
(10_state.md R27). -/

namespace Sys2Proof.Config

/-- `MANT_W`: bits of the mantissa field, length of the fractional expansion (00_scope.md R8). -/
@[simp] abbrev mantW : Nat := 23

/-- `EXP_W`: bits of the exponent field (00_scope.md R8). -/
@[simp] abbrev expW : Nat := 8

/-- `BIAS`: the exponent bias (00_scope.md R8). -/
@[simp] abbrev bias : Int := 127

/-- `INT_W`: bits of the integer part (00_scope.md R8). -/
@[simp] abbrev intW : Nat := 64

/-- `TOTAL_W`: bits of the output (00_scope.md R8). -/
@[simp] abbrev totalW : Nat := 32

/-- `BEXP_MIN`, the least legal biased exponent (00_scope.md R8). -/
@[simp] abbrev bexpMin : Int := 0

/-- `BEXP_MAX`, the largest legal biased exponent (00_scope.md R8). -/
@[simp] abbrev bexpMax : Int := 255

/-- `BEXP_W`: bits of the two's-complement exponent port (00_scope.md R9). -/
@[simp] abbrev bexpW : Nat := 10

/-- `MLEN_W`: bits of the packer's mantissa-length port (00_scope.md R9). -/
@[simp] abbrev mlenW : Nat := 5

/-- Position of the sign field in `P` (30_encoding.md R84). -/
@[simp] abbrev signPos : Nat := 0

/-- First position of the exponent field in `P` (30_encoding.md R84). -/
@[simp] abbrev expPos : Nat := 1

/-- Last position of the exponent field in `P` (30_encoding.md R84). -/
@[simp] abbrev expLast : Nat := 8

/-- First position of the mantissa field in `P` (30_encoding.md R84). -/
@[simp] abbrev mantPos : Nat := 9

/-- Last position of the mantissa field in `P` (30_encoding.md R84). -/
@[simp] abbrev mantLast : Nat := 31

/-- `TEXT_MAX`: the most characters one request can hold. OPEN in the spec (00_scope.md R9, D4), so it has no
value here: nothing can be proved of one (assumption log, entry 7). -/
opaque textMax : Nat

end Sys2Proof.Config
end

