-- ==== Sys2Proof/Word.lean ====
section
/-! DEFINITION. The words of the model: characters, character sequences, bit sequences, decimal digits
(00_scope.md R12, R13, R17). -/

namespace Sys2Proof

/-- One character code, `CHAR_W` = 8 bits (00_scope.md R9, R17). -/
abbrev Byte := BitVec 8

/-- A character sequence, index 0 first (00_scope.md R12). -/
abbrev Text := List Byte

/-- A bit sequence, most significant bit first: index 0 is the source's position 0 (00_scope.md R12). -/
abbrev Bits := List Bool

/-- One decimal digit, `dval` 0 to 9 (30_encoding.md R71). -/
abbrev Digit := Fin 10

end Sys2Proof
end

