-- ==== Sys2Proof/Syntax.lean ====
section
/-! DEFINITION. The instructions: one constructor for each row of spec/opcode_table.json (30_encoding.md R88
and its rows for character classes, status codes and the F32 layout). An operation reads only its inputs
(00_scope.md R16), so its inputs are the constructor's arguments. -/

namespace Sys2Proof

/-- The class of one character code (30_encoding.md R71). -/
inductive CharClass
  | minus
  | dot
  | digit (d : Digit)
  | illegal
  deriving DecidableEq, Repr

/-- The row's operation, with its operands. -/
inductive Instr
  /-- PARSE of the text `T` (40_parse.md R100). -/
  | parse (t : Text)
  /-- PARSE.SIGN of the text `T` (R101). -/
  | parseSign (t : Text)
  /-- PARSE.SPLIT of `S` (R102). -/
  | parseSplit (body : Text)
  /-- PARSE.INT of `IP` (R103, R104). -/
  | parseInt (ip : Text)
  /-- PARSE.FRAC of `FP` (R105, R106). -/
  | parseFrac (fp : Text)
  /-- PARSE.NEG of `MINUS`, `INT`, `F` (R107). -/
  | parseNeg (minus : Bool) (int : BitVec 64) (f : Nat)
  /-- FRAC2BIN of `F`, `K` (41_binconv.md R123). -/
  | frac2bin (f k : Nat)
  /-- INT2BIN of `INT` (R120). -/
  | int2bin (int : BitVec 64)
  /-- NORMALIZE of the ports `int[63:0]`, `fb[22:0]` (42_normalize.md R130). -/
  | normalize (int : BitVec 64) (fb : BitVec 23)
  /-- NORM.FRAC, case `INT == 0` with a 1 in `fb` (R132). -/
  | normFrac (fb : BitVec 23)
  /-- NORM.ZERO, case `INT == 0` with no 1 in `fb` (R133). -/
  | normZero
  /-- NORM.ONE, case `INT == 1` (R134). -/
  | normOne (fb : BitVec 23)
  /-- NORM.INT, case `INT >= 2` (R135). -/
  | normInt (int : BitVec 64) (fb : BitVec 23)
  /-- NORM.RANGE of the port `bexp[9:0]` (R137, R141). -/
  | normRange (bexp : BitVec 10)
  /-- PACK of the ports `sign`, `mant[22:0]`, `mlen[4:0]`, `bexp[9:0]` (43_pack.md R150). -/
  | pack (sign : Bool) (mant : BitVec 23) (mlen : BitVec 5) (bexp : BitVec 10)
  /-- CONVERT of the text `T` (44_convert.md R160). -/
  | convert (t : Text)
  /-- START with the text `T`, a host step (R165). -/
  | start (t : Text)
  /-- COMPLETE, the block's step (R166). -/
  | complete
  /-- READ, a host step (R167). -/
  | read
  /-- RESET, a host step (70_reset_and_hazards.md R210). -/
  | reset
  /-- CHAR.MINUS, the code `0x2D` (30_encoding.md R71). -/
  | charMinus
  /-- CHAR.DOT, the code `0x2E` (R71). -/
  | charDot
  /-- CHAR.DIGIT0_7, the codes `00110ddd` (R71). -/
  | charDigit07 (d : BitVec 3)
  /-- CHAR.DIGIT8_9, the codes `0011100d` (R71). -/
  | charDigit89 (d0 : BitVec 1)
  /-- CHAR.ILLEGAL, every other code (R74). -/
  | charIllegal (code : Byte)
  /-- STATUS.OK, the code `0b00` (R85). -/
  | statusOk
  /-- STATUS.PARSE_ERROR, the code `0b01` (R85). -/
  | statusParseError
  /-- STATUS.RANGE_ERROR, the code `0b10` (R85). -/
  | statusRangeError
  /-- STATUS.RESERVED, the code `0b11` (R85). -/
  | statusReserved
  /-- F32, a result word by its three fields (R80). -/
  | f32 (sign : Bool) (exponent : BitVec 8) (mantissa : BitVec 23)
  deriving DecidableEq, Repr

/-- What the bytes of a command are: an operation request, or a word of one of the spec's formats. -/
inductive Format
  /-- An operation of 30_encoding.md R88: a selector byte, then the operands (assumption log, entry 2). -/
  | op
  /-- A character code, the table's CHAR8 (30_encoding.md R71). -/
  | char8
  /-- A status code, the table's STATUS2 (R85), in one byte. -/
  | status2
  /-- A result word, the table's WORD32 (R80). -/
  | word32
  /-- The normalizer's ports `int[63:0]` and `fb[22:0]`, whose value selects the case (R89). -/
  | normPorts
  deriving DecidableEq, Repr

/-- One encoded command of the schedule. -/
structure Command where
  fmt   : Format
  bytes : List Byte
  deriving DecidableEq, Repr

end Sys2Proof
end

