-- ==== Sys2Proof/WellFormed.lean ====
section
/-! DEFINITION. Which operands a row admits: the domains the rules give, and for the case rows of NORMALIZE
and the complement row of the character codes the values their `select` column names. -/

namespace Sys2Proof

/-- The twelve codes the block gives a meaning to, as the table of 30_encoding.md R71 lists them. -/
def legalCodes : List Nat :=
  [0x2D, 0x2E, 0x30, 0x31, 0x32, 0x33, 0x34, 0x35, 0x36, 0x37, 0x38, 0x39]

/-- The operands are in the row's domain. FRAC2BIN: `0 <= F < 10^K` (41_binconv.md R123). NORM.FRAC: `FB` with
at least one 1 (42_normalize.md R132). NORM.INT: `INT >= 2` (R135). CHAR.ILLEGAL: none of the twelve codes
(30_encoding.md R71). The other rows are defined on every operand. -/
def Instr.wf : Instr → Bool
  | .parse _ => true
  | .parseSign _ => true
  | .parseSplit _ => true
  | .parseInt _ => true
  | .parseFrac _ => true
  | .parseNeg _ _ _ => true
  | .frac2bin f k => decide (f < 10 ^ k)
  | .int2bin _ => true
  | .normalize _ _ => true
  | .normFrac fb => decide (fb ≠ 0#23)
  | .normZero => true
  | .normOne _ => true
  | .normInt int _ => decide (2 ≤ int.toNat)
  | .normRange _ => true
  | .pack _ _ _ _ => true
  | .convert _ => true
  | .start _ => true
  | .complete => true
  | .read => true
  | .reset => true
  | .charMinus => true
  | .charDot => true
  | .charDigit07 _ => true
  | .charDigit89 _ => true
  | .charIllegal code => decide (code.toNat ∉ legalCodes)
  | .statusOk => true
  | .statusParseError => true
  | .statusRangeError => true
  | .statusReserved => true
  | .f32 _ _ _ => true

end Sys2Proof
end

