-- ==== Sys2Proof/Decode.lean ====
section
/-! DEFINITION. From bytes to an instruction and back. The words of the spec's formats (30_encoding.md R71,
R80, R85, R89) are read as their rules say. The block's operations have no opcodes (R88): the selector byte
that stands for one in a command, the row's number in spec/opcode_table.json, and the layout of its operand
bytes are DESIGN CHOICE (assumption log, entry 2). -/

namespace Sys2Proof

/-! ### Characters and digits -/

/-- `is_digit(c)`: the ten characters `'0'` to `'9'` and no other, by the two match/mask rows
(00_scope.md R17, 30_encoding.md R71). -/
def isDigit (c : Byte) : Bool :=
  c &&& 0xF8#8 == 0x30#8 || c &&& 0xFE#8 == 0x38#8

/-- `dval(c)`: the code less `0x30` (30_encoding.md R71); used on digits only. -/
def dval (c : Byte) : Digit :=
  Fin.ofNat 10 (c.toNat - 0x30)

/-- The character of a digit (30_encoding.md R71). -/
def digitChar (d : Nat) : Byte :=
  BitVec.ofNat 8 (0x30 + d)

/-- The code of `'-'` (30_encoding.md R71). -/
def minusCode : Byte := 0x2D#8

/-- The code of `'.'` (30_encoding.md R71). -/
def dotCode : Byte := 0x2E#8

/-- The digit value of CHAR.DIGIT0_7: its three field bits. -/
def digit07 (d : BitVec 3) : Digit :=
  Fin.ofNat 10 d.toNat

/-- The digit value of CHAR.DIGIT8_9: 8 plus its field bit. -/
def digit89 (d0 : BitVec 1) : Digit :=
  Fin.ofNat 10 (8 + d0.toNat)

/-- `val10(d)`: the integer a digit sequence spells, first digit most significant (00_scope.md R12). -/
def val10 (ds : List Digit) : Nat :=
  ds.foldl (fun n d => 10 * n + d.val) 0

/-- The digits of a character sequence, `FD[i] = dval(FP[i])` (40_parse.md R106). -/
def digitsOf (s : Text) : List Digit :=
  s.map dval

/-- `k` digit characters spelling `f`, most significant first. -/
def digitChars : Nat → Nat → Text
  | 0, _ => []
  | k + 1, f => digitChars k (f / 10) ++ [digitChar (f % 10)]

/-- The row of one character code (30_encoding.md R71, R74): three match/mask tests, then the complement. -/
def decodeChar (c : Byte) : Instr :=
  if c &&& 0xFF#8 = 0x2D#8 then .charMinus
  else if c &&& 0xFF#8 = 0x2E#8 then .charDot
  else if c &&& 0xF8#8 = 0x30#8 then .charDigit07 (c.extractLsb' 0 3)
  else if c &&& 0xFE#8 = 0x38#8 then .charDigit89 (c.extractLsb' 0 1)
  else .charIllegal c

/-! ### Bytes and numbers -/

/-- The number a byte list holds, first byte least significant: the table numbers bit 0 as the least
significant bit of the first byte. -/
def leNat : List Byte → Nat
  | [] => 0
  | b :: bs => b.toNat + 256 * leNat bs

/-- The `n` low bytes of a number, least significant first. -/
def leBytes : Nat → Nat → List Byte
  | 0, _ => []
  | n + 1, v => BitVec.ofNat 8 v :: leBytes n (v / 256)

/-- The bytes of a number without a leading zero byte at the top; `fuel` bounds their count. -/
def natBytesFuel : Nat → Nat → List Byte
  | 0, _ => []
  | fuel + 1, v => if v = 0 then [] else BitVec.ofNat 8 v :: natBytesFuel fuel (v / 256)

/-- The shortest little-endian byte list of a number. -/
def natBytes (v : Nat) : List Byte :=
  natBytesFuel v v

/-- Why bytes are no instruction. -/
inductive DecodeError
  /-- No operation has this selector byte. -/
  | unknownSelector
  /-- Too few or too many bytes for the operands. -/
  | wrongLength
  /-- A bit above an operand's width is 1. -/
  | reservedBits
  /-- A digit operand holds a character that is no digit. -/
  | notADigit
  /-- A number has a zero byte at its most significant end. -/
  | notCanonical
  deriving DecidableEq, Repr

/-- An operand of `w` bits in exactly `n` bytes. -/
def decodeField (n w : Nat) (bs : List Byte) : Except DecodeError (BitVec w) :=
  if bs.length = n then
    if leNat bs < 2 ^ w then .ok (BitVec.ofNat w (leNat bs)) else .error .reservedBits
  else .error .wrongLength

/-- An operand of one bit in one byte. -/
def decodeFlag (bs : List Byte) : Except DecodeError Bool :=
  match decodeField 1 1 bs with
  | .error e => .error e
  | .ok b => .ok (b == 1#1)

/-- A natural number, in its shortest byte list. -/
def decodeNat (bs : List Byte) : Except DecodeError Nat :=
  if bs.getLast? = some 0#8 then .error .notCanonical else .ok (leNat bs)

/-! ### Decoding -/

/-- A row with no operand. -/
def decodeNone (i : Instr) (bs : List Byte) : Except DecodeError Instr :=
  if bs = [] then .ok i else .error .wrongLength

/-- PARSE.NEG's operands: `MINUS`, `INT`, `F`. -/
def decodeParseNeg (bs : List Byte) : Except DecodeError Instr :=
  match decodeFlag (bs.take 1), decodeField 8 64 ((bs.drop 1).take 8), decodeNat (bs.drop 9) with
  | .ok m, .ok n, .ok f => .ok (.parseNeg m n f)
  | .error e, _, _ => .error e
  | _, .error e, _ => .error e
  | _, _, .error e => .error e

/-- FRAC2BIN's operands: the `K` digit characters that spell `F`. -/
def decodeFrac2bin (bs : List Byte) : Except DecodeError Instr :=
  if bs.all isDigit then .ok (.frac2bin (val10 (digitsOf bs)) bs.length) else .error .notADigit

/-- INT2BIN's operand. -/
def decodeInt2bin (bs : List Byte) : Except DecodeError Instr :=
  match decodeField 8 64 bs with
  | .error e => .error e
  | .ok n => .ok (.int2bin n)

/-- NORMALIZE's operands: the two ports. -/
def decodeNormalize (bs : List Byte) : Except DecodeError Instr :=
  match decodeField 8 64 (bs.take 8), decodeField 3 23 (bs.drop 8) with
  | .ok n, .ok fb => .ok (.normalize n fb)
  | .error e, _ => .error e
  | _, .error e => .error e

/-- NORM.RANGE's operand. -/
def decodeNormRange (bs : List Byte) : Except DecodeError Instr :=
  match decodeField 2 10 bs with
  | .error e => .error e
  | .ok b => .ok (.normRange b)

/-- PACK's operands: `sign`, `mant`, `mlen`, `bexp`. -/
def decodePack (bs : List Byte) : Except DecodeError Instr :=
  match decodeFlag (bs.take 1), decodeField 3 23 ((bs.drop 1).take 3),
      decodeField 1 5 ((bs.drop 4).take 1), decodeField 2 10 (bs.drop 5) with
  | .ok s, .ok m, .ok l, .ok b => .ok (.pack s m l b)
  | .error e, _, _, _ => .error e
  | _, .error e, _, _ => .error e
  | _, _, .error e, _ => .error e
  | _, _, _, .error e => .error e

/-- An operation by its selector, the row's number in the table (DESIGN CHOICE, entry 2). The case rows 9 to
12 have no selector: the normalizer's ports select them (30_encoding.md R89). -/
def decodeOp (sel : Byte) (bs : List Byte) : Except DecodeError Instr :=
  match sel.toNat with
  | 0 => .ok (.parse bs)
  | 1 => .ok (.parseSign bs)
  | 2 => .ok (.parseSplit bs)
  | 3 => .ok (.parseInt bs)
  | 4 => .ok (.parseFrac bs)
  | 5 => decodeParseNeg bs
  | 6 => decodeFrac2bin bs
  | 7 => decodeInt2bin bs
  | 8 => decodeNormalize bs
  | 13 => decodeNormRange bs
  | 14 => decodePack bs
  | 15 => .ok (.convert bs)
  | 16 => .ok (.start bs)
  | 17 => decodeNone .complete bs
  | 18 => decodeNone .read bs
  | 19 => decodeNone .reset bs
  | _ => .error .unknownSelector

/-- Case selection by the value of `INT`, and of `FB` inside case 1 (30_encoding.md R89, 42_normalize.md
R131). -/
def normCase (int : BitVec 64) (fb : BitVec 23) : Instr :=
  if int = 0#64 then
    if fb = 0#23 then .normZero else .normFrac fb
  else if int.extractLsb' 1 63 = 0#63 then .normOne fb
  else .normInt int fb

/-- The ports of the normalizer: eight bytes of `int`, three of `fb`. -/
def decodeNormPorts (bs : List Byte) : Except DecodeError Instr :=
  match decodeField 8 64 (bs.take 8), decodeField 3 23 (bs.drop 8) with
  | .ok n, .ok fb => .ok (normCase n fb)
  | .error e, _ => .error e
  | _, .error e => .error e

/-- A status code (30_encoding.md R85). -/
def statusRow (code : BitVec 2) : Instr :=
  if code = 0b00#2 then .statusOk
  else if code = 0b01#2 then .statusParseError
  else if code = 0b10#2 then .statusRangeError
  else .statusReserved

/-- A status code in one byte. -/
def decodeStatus (bs : List Byte) : Except DecodeError Instr :=
  match decodeField 1 2 bs with
  | .error e => .error e
  | .ok c => .ok (statusRow c)

/-- The fields of a result word (30_encoding.md R80). -/
def f32Row (w : BitVec 32) : Instr :=
  .f32 (w.getLsbD 31) (w.extractLsb' 23 8) (w.extractLsb' 0 23)

/-- A result word in four bytes. -/
def decodeWord (bs : List Byte) : Except DecodeError Instr :=
  match decodeField 4 32 bs with
  | .error e => .error e
  | .ok w => .ok (f32Row w)

/-- One character code in one byte. -/
def decodeChar8 (bs : List Byte) : Except DecodeError Instr :=
  match bs with
  | [c] => .ok (decodeChar c)
  | _ => .error .wrongLength

/-- The instruction of a command: total, rejecting by name. -/
def decode (c : Command) : Except DecodeError Instr :=
  match c.fmt with
  | .op =>
    match c.bytes with
    | [] => .error .wrongLength
    | sel :: bs => decodeOp sel bs
  | .char8 => decodeChar8 c.bytes
  | .status2 => decodeStatus c.bytes
  | .word32 => decodeWord c.bytes
  | .normPorts => decodeNormPorts c.bytes

/-! ### Encoding -/

/-- The vector `sign ++ exponent ++ mantissa` (30_encoding.md R80). -/
def f32Word (sign : Bool) (exponent : BitVec 8) (mantissa : BitVec 23) : BitVec 32 :=
  BitVec.ofBool sign ++ exponent ++ mantissa

/-- A command of the `op` format. -/
def opCommand (sel : Nat) (bs : List Byte) : Command :=
  ⟨.op, BitVec.ofNat 8 sel :: bs⟩

/-- A command with the normalizer's ports. -/
def portsCommand (int : BitVec 64) (fb : BitVec 23) : Command :=
  ⟨.normPorts, leBytes 8 int.toNat ++ leBytes 3 fb.toNat⟩

/-- The one byte of a flag. -/
def flagBytes (b : Bool) : List Byte :=
  leBytes 1 b.toNat

/-- The command of an instruction. -/
def encode : Instr → Command
  | .parse t => opCommand 0 t
  | .parseSign t => opCommand 1 t
  | .parseSplit t => opCommand 2 t
  | .parseInt t => opCommand 3 t
  | .parseFrac t => opCommand 4 t
  | .parseNeg m n f => opCommand 5 (flagBytes m ++ leBytes 8 n.toNat ++ natBytes f)
  | .frac2bin f k => opCommand 6 (digitChars k f)
  | .int2bin n => opCommand 7 (leBytes 8 n.toNat)
  | .normalize n fb => opCommand 8 (leBytes 8 n.toNat ++ leBytes 3 fb.toNat)
  | .normFrac fb => portsCommand 0#64 fb
  | .normZero => portsCommand 0#64 0#23
  | .normOne fb => portsCommand 1#64 fb
  | .normInt n fb => portsCommand n fb
  | .normRange b => opCommand 13 (leBytes 2 b.toNat)
  | .pack s m l b =>
    opCommand 14 (flagBytes s ++ leBytes 3 m.toNat ++ leBytes 1 l.toNat ++ leBytes 2 b.toNat)
  | .convert t => opCommand 15 t
  | .start t => opCommand 16 t
  | .complete => opCommand 17 []
  | .read => opCommand 18 []
  | .reset => opCommand 19 []
  | .charMinus => ⟨.char8, [0x2D#8]⟩
  | .charDot => ⟨.char8, [0x2E#8]⟩
  | .charDigit07 d => ⟨.char8, [0b00110#5 ++ d]⟩
  | .charDigit89 d0 => ⟨.char8, [0b0011100#7 ++ d0]⟩
  | .charIllegal c => ⟨.char8, [c]⟩
  | .statusOk => ⟨.status2, [0x00#8]⟩
  | .statusParseError => ⟨.status2, [0x01#8]⟩
  | .statusRangeError => ⟨.status2, [0x02#8]⟩
  | .statusReserved => ⟨.status2, [0x03#8]⟩
  | .f32 s e m => ⟨.word32, leBytes 4 (f32Word s e m).toNat⟩

/-! ### Words of the opcode table -/

/-- The command of a word of the table, by how many bits the row has: 2 for a status code, 32 for a result
word, 64 for the normalizer's `int` port (`fb` then 0), 87 for both its ports. A word of 8 bits is a status
code below 4 (the STATUS2 rows in whole bytes) and a character code otherwise (DESIGN CHOICE, entry 3). Any
other width is an operation request. -/
def tableCommand (nbits w : Nat) : Command :=
  match nbits with
  | 2 => ⟨.status2, leBytes 1 w⟩
  | 8 => if w < 4 then ⟨.status2, leBytes 1 w⟩ else ⟨.char8, leBytes 1 w⟩
  | 32 => ⟨.word32, leBytes 4 w⟩
  | 64 => ⟨.normPorts, leBytes 11 w⟩
  | 87 => ⟨.normPorts, leBytes 11 w⟩
  | n => ⟨.op, leBytes (n / 8) w⟩

/-- The instruction the decoder reads from a word of the table. -/
def decodeTableWord (nbits w : Nat) : Option Instr :=
  match decode (tableCommand nbits w) with
  | .ok i => some i
  | .error _ => none

end Sys2Proof
end

