-- ==== Sys2Proof/Machine/Operands.lean ====
section
/-! DEFINITION. Operand forms: bit sequences and their vectors (00_scope.md R12, R13), the ports between the
sub-blocks (30_encoding.md R76 to R78), and the class of a character row. -/

namespace Sys2Proof.Machine

/-- `val2(s)`: the unsigned integer a bit sequence spells (00_scope.md R12). -/
def val2 (s : Bits) : Nat :=
  s.foldl (fun n b => 2 * n + b.toNat) 0

/-- `rep(b, n)` (00_scope.md R12). -/
def rep (b : Bool) (n : Nat) : Bits :=
  List.replicate n b

/-- `vec(s)`: the vector of width `n` whose top bit is `s[0]` (00_scope.md R13). -/
def vec (n : Nat) (s : Bits) : BitVec n :=
  BitVec.ofNat n (val2 s)

/-- `seq(v)`: `seq(v)[i] = v[N-1-i]` (00_scope.md R13). -/
def seq {n : Nat} (v : BitVec n) : Bits :=
  (List.range n).map v.getMsbD

/-- The `n`-bit sequence that spells `x`: bit `j` is `(x div 2^(n-1-j)) mod 2` (43_pack.md R152). -/
def bitsOfNat (n x : Nat) : Bits :=
  (List.range n).map fun j => x / 2 ^ (n - 1 - j) % 2 == 1

/-- The `bexp[9:0]` port of a biased exponent, two's complement (42_normalize.md R141). -/
def bexpPort (e : Int) : BitVec 10 :=
  BitVec.ofInt 10 e

/-- The biased exponent a `bexp[9:0]` port carries (42_normalize.md R141). -/
def bexpValue (b : BitVec 10) : Int :=
  b.toInt

/-- The class of a character code (30_encoding.md R71), read off its row. -/
def charClass (c : Byte) : CharClass :=
  match decodeChar c with
  | .charMinus => .minus
  | .charDot => .dot
  | .charDigit07 d => .digit (digit07 d)
  | .charDigit89 d0 => .digit (digit89 d0)
  | _ => .illegal

end Sys2Proof.Machine
end

