-- ==== Sys2Proof/Machine/State.lean ====
section
/-! DEFINITION. The state: the interface state of the block (10_state.md R22, R23), what the last step drove on
the output ports of an operation or sub-block used alone (R28 to R32, 44_convert.md R169), and the model's own
fields for the host and the schedule. A value the spec says a cell does not hold ("holds no value", R23, R35) is `none`. -/

namespace Sys2Proof.Machine

/-- The two error kinds (60_exceptions.md R180). -/
inductive ErrorKind
  | parseError
  | rangeError
  deriving DecidableEq, Repr

/-- The status of a transaction; the code `0b11` has no constructor (30_encoding.md R85). -/
inductive Status
  | ok
  | parseError
  | rangeError
  deriving DecidableEq, Repr

/-- The outcome of a conversion: bits only when it succeeded (44_convert.md R160, D12). The bits are
`vec(P)`. -/
inductive Response
  | ok (p : BitVec 32)
  | error (k : ErrorKind)
  deriving DecidableEq, Repr

/-- Outputs of the PARSE family used alone (10_state.md R28, 40_parse.md R101 to R107). -/
structure ParsePorts where
  /-- `MINUS` (R101). -/
  minus : Option Bool := none
  /-- `S`, the text without its sign marker (R101). -/
  body : Option Text := none
  /-- `IP` (R102). -/
  ip : Option Text := none
  /-- `HASDOT` (R102). -/
  hasDot : Option Bool := none
  /-- `FP` (R102). -/
  fp : Option Text := none
  /-- `SIGN` (R107). -/
  sign : Option Bool := none
  /-- `INT` (R104). -/
  int : Option (BitVec 64) := none
  /-- `FD` (R106). -/
  fd : Option (List Digit) := none
  /-- `K` (R106). -/
  k : Option Nat := none
  /-- `F` (R106). -/
  f : Option Nat := none
  /-- The kind raised, if the operation raised (00_scope.md R15). -/
  raised : Option ErrorKind := none
  deriving DecidableEq, Repr

/-- Outputs of INT2BIN and FRAC2BIN used alone (10_state.md R29). -/
structure BinPorts where
  /-- `W` (41_binconv.md R120). -/
  w : Option Bits := none
  /-- `KW` (R120). -/
  kw : Option Nat := none
  /-- `fb[22:0] = vec(FB)` (R123, 30_encoding.md R77). -/
  fb : Option (BitVec 23) := none
  deriving DecidableEq, Repr

/-- Output ports of `int_to_fp_normalizer` (42_normalize.md R130). -/
structure NormPorts where
  mant : Option (BitVec 23) := none
  mlen : Option (BitVec 5) := none
  bexp : Option (BitVec 10) := none
  rangeErr : Option Bool := none
  deriving DecidableEq, Repr

/-- Output ports of `ieee754_packer` (43_pack.md R150). -/
structure PackPorts where
  word : Option (BitVec 32) := none
  rangeErr : Option Bool := none
  deriving DecidableEq, Repr

/-- The output ports, by the operation they belong to. They are no storage (10_state.md R32): they hold what the
step that has just been taken drove on them, and nothing of a step before it (assumption log, entry 8). -/
structure Ports where
  /-- Outputs of the PARSE family. -/
  parse : ParsePorts := {}
  /-- Outputs of INT2BIN and FRAC2BIN. -/
  bin : BinPorts := {}
  /-- Outputs of the normalizer. -/
  norm : NormPorts := {}
  /-- Outputs of the packer. -/
  pack : PackPorts := {}
  /-- The outcome of CONVERT. -/
  conv : Option Response := none
  deriving DecidableEq, Repr

/-- What has been read of a text, character by character (30_encoding.md R73, R74). -/
structure Scanned where
  /-- The index of the next character. -/
  pos : Nat := 0
  minus : Bool := false
  hasDot : Bool := false
  ip : List Digit := []
  fp : List Digit := []
  deriving DecidableEq, Repr

/-- The character decoder's context: a prefix read, or the error a character raised. -/
inductive Scan
  | reading (r : Scanned)
  | parseError
  deriving DecidableEq, Repr

/-- What the host last got from the block: the status, and the word when it got one. -/
structure HostView where
  status : Option Status := none
  word : Option (BitVec 32) := none
  deriving DecidableEq, Repr

structure State where
  /-- `TEXT[0 .. TEXT_MAX-1]`, index and code, indices rising; an unlisted cell holds no value (R22). -/
  text : List Host.Cell
  /-- `LEN` (R22). -/
  len : Option Nat
  /-- `BUSY` (R22); no value before the first RESET (70_reset_and_hazards.md R213). -/
  busy : Option Bool
  /-- `RSP_VALID` (R23); no value before the first RESET (70_reset_and_hazards.md R213). -/
  rspValid : Option Bool
  /-- `STATUS` (R23). -/
  status : Option Status
  /-- `P[0..31]` as `vec(P)`; `WORD` is this vector (R23, 30_encoding.md R83). -/
  p : Option (BitVec 32)
  /-- The output ports of the step just taken; no step reads them and each step drives them anew (R32). -/
  ports : Ports
  /-- MODEL'S OWN: the context of the character decoder (assumption log, entry 10). -/
  scan : Scan
  /-- MODEL'S OWN: the host's side (entries 11, 12). -/
  host : HostView
  /-- MODEL'S OWN: the steps still to come (entry 1). -/
  script : List Command
  deriving DecidableEq, Repr

/-- Right after RESET (10_state.md R35, 70_reset_and_hazards.md R210): idle, no response, and nothing else
holds a value. The model's own fields are empty (DESIGN CHOICE, entries 4, 10, 12). -/
def State.reset : State where
  text := []
  len := none
  busy := some false
  rspValid := some false
  status := none
  p := none
  ports := {}
  scan := .reading {}
  host := {}
  script := []

/-- Before the first RESET: nothing holds a value, `BUSY` and `RSP_VALID` included
(70_reset_and_hazards.md R213). -/
def State.powerOn : State :=
  { State.reset with busy := none, rspValid := none }

/-- Where the machine stops. The block has no fault that halts it (60_exceptions.md R197). -/
inductive Fault
  /-- Raised by COMPLETE when `LEN`, or a cell of `TEXT` below it, holds no value: no run reaches such a
  state, since START writes them all (44_convert.md R165). Safe. -/
  | textUnwritten
  deriving DecidableEq, Repr

/-- Steps the model gives no meaning (60_exceptions.md R197b) and commands that are no instruction. -/
inductive Refusal
  /-- An arm of `exec` without a meaning; none is left. Safe. -/
  | notModelled (mnemonic : String)
  /-- START, COMPLETE or READ before the first RESET (70_reset_and_hazards.md R213). Safe. -/
  | beforeReset
  /-- START while `BUSY == 1` (44_convert.md R165, 70_reset_and_hazards.md R215). Safe. -/
  | startWhileBusy
  /-- START or CONVERT of a text longer than `TEXT_MAX` (44_convert.md R160, R165). Safe. -/
  | textTooLong
  /-- COMPLETE while `BUSY == 0` (44_convert.md R166). Safe. -/
  | completeWhileIdle
  /-- READ while `RSP_VALID == 0` (44_convert.md R167). Safe. -/
  | readWithoutResponse
  /-- READ with `RSP_VALID == 1` where `STATUS`, or `P` under OK, holds no value: no run reaches it
  (44_convert.md R168). Safe. -/
  | responseUnwritten
  /-- STATUS.RESERVED: the code is never produced (30_encoding.md R85). Safe. -/
  | statusReserved
  /-- An operand outside the row's domain (`Instr.wf`); no command decodes to one. Safe. -/
  | outsideDomain
  /-- Raised by the step: the next command decodes to no instruction. Safe. -/
  | undecodable
  deriving DecidableEq, Repr

end Sys2Proof.Machine
end

