-- ==== Sys2Proof/Machine/Flags.lean ====
section
/-! DEFINITION. The block has no condition codes and no sticky flags (10_state.md R26): what stands here in
their place is its one status and the range check behind the sub-blocks' `range_err` outputs. -/

namespace Sys2Proof.Machine

/-- `BEXP < 0 or BEXP > 255` (42_normalize.md R137, 43_pack.md R153). -/
def bexpOutOfRange (bexp : Int) : Bool :=
  decide (bexp < Config.bexpMin ∨ Config.bexpMax < bexp)

/-- The status that reports an error kind (60_exceptions.md R183). -/
def ErrorKind.status : ErrorKind → Status
  | .parseError => .parseError
  | .rangeError => .rangeError

/-- The status of an outcome (44_convert.md R166). -/
def Response.status : Response → Status
  | .ok _ => .ok
  | .error k => k.status

/-- `P` of an outcome: bits only under OK (44_convert.md R166). -/
def Response.bits : Response → Option (BitVec 32)
  | .ok p => some p
  | .error _ => none

/-- The 2-bit code of a status (30_encoding.md R85). -/
def Status.code : Status → BitVec 2
  | .ok => 0b00#2
  | .parseError => 0b01#2
  | .rangeError => 0b10#2

end Sys2Proof.Machine
end

