-- ==== Sys2Proof/Machine/Ops.lean ====
section
/-! DEFINITION. The named operations: reading and writing `TEXT` (20_memory.md R50, R51), handing a text over,
publishing a response (the block's form of taking an exception when the response is an error kind,
60_exceptions.md R183; there is no return from one, R187), clearing, one character decoded in its place, and
the schedule. -/

namespace Sys2Proof.Machine

/-- The text buffer: written cells only, indices strictly rising. -/
abbrev Memory := List Host.Cell

/-- The canonical form: indices strictly rising. An unlisted cell holds no value, so no entry is redundant. -/
def Memory.wf : Memory → Bool
  | [] => true
  | [_] => true
  | a :: b :: m => decide (a.1 < b.1) && Memory.wf (b :: m)

/-- `TEXT[i]` (00_scope.md R14); `none` for a cell that holds no value. -/
def Memory.read : Memory → Nat → Option Byte
  | [], _ => none
  | (j, c) :: m, i => if i = j then some c else Memory.read m i

/-- `TEXT[i] <- c` (00_scope.md R14). -/
def Memory.write : Memory → Nat → Byte → Memory
  | [], i, c => [(i, c)]
  | (j, d) :: m, i, c =>
    if i < j then (i, c) :: (j, d) :: m
    else if i = j then (i, c) :: m
    else (j, d) :: Memory.write m i c

/-- `TEXT[i .. i+n-1]`; `none` if one of the cells holds no value. -/
def Memory.readRange (m : Memory) : Nat → Nat → Option Text
  | _, 0 => some []
  | i, n + 1 =>
    match m.read i, Memory.readRange m (i + 1) n with
    | some c, some t => some (c :: t)
    | _, _ => none

/-- `for j < len(T): TEXT[i+j] <- T[j]` (44_convert.md R165). -/
def Memory.writeRange : Memory → Nat → Text → Memory
  | m, _, [] => m
  | m, i, c :: t => Memory.writeRange (m.write i c) (i + 1) t

/-- The text the block reads at COMPLETE, `TEXT[0..LEN-1]` (44_convert.md R166). -/
def State.request (s : State) : Option Text :=
  match s.len with
  | none => none
  | some n => Memory.readRange s.text 0 n

/-- A step drives the output ports: what the step before had on them is gone (10_state.md R32). -/
def State.drive (s : State) (o : Ports) : State :=
  { s with ports := o }

/-- START's effect (44_convert.md R165): the text is written, the cells above it are kept, the previous
response is gone. A text begins, so the character decoder is at its first character (entry 10). -/
def State.handOver (s : State) (t : Text) : State :=
  { s with
    text := Memory.writeRange s.text 0 t
    len := some t.length
    busy := some true
    rspValid := some false
    status := none
    p := none
    ports := {}
    scan := .reading {} }

/-- COMPLETE's effect (44_convert.md R166, 60_exceptions.md R183), for a success and for an error kind
alike. -/
def State.publish (s : State) (r : Response) : State :=
  { s with
    status := some r.status
    p := r.bits
    rspValid := some true
    busy := some false
    ports := {} }

/-- RESET's effect (70_reset_and_hazards.md R210): every piece of the block's state, and the ports, as after
reset; the host's side and the schedule are not the block's. -/
def State.clear (s : State) : State :=
  { State.reset with host := s.host, script := s.script }

/-- The response as the host may read it (44_convert.md R167). -/
def State.response (s : State) : Option Response :=
  match s.status, s.p with
  | some .ok, some p => some (.ok p)
  | some .parseError, _ => some (.error .parseError)
  | some .rangeError, _ => some (.error .rangeError)
  | _, _ => none

/-- The host gets a response: its status, and the word under OK only (44_convert.md R167). -/
def State.deliver (s : State) (r : Response) : State :=
  { s with ports := {}, host := { status := some r.status, word := r.bits } }

/-- One character in its place (30_encoding.md R73, R74): a `'-'` is the sign marker at index 0 only, the
first `'.'` separates, a digit belongs to the part it stands in, and anything else is a ParseError. -/
def Scan.char : Scan → CharClass → Scan
  | .parseError, _ => .parseError
  | .reading r, .minus =>
    if r.pos = 0 then .reading { r with pos := 1, minus := true } else .parseError
  | .reading r, .dot =>
    if r.hasDot then .parseError else .reading { r with pos := r.pos + 1, hasDot := true }
  | .reading r, .digit d =>
    if r.hasDot then .reading { r with pos := r.pos + 1, fp := r.fp ++ [d] }
    else .reading { r with pos := r.pos + 1, ip := r.ip ++ [d] }
  | .reading _, .illegal => .parseError

/-- The character decoder takes one character. -/
def State.scanChar (s : State) (c : CharClass) : State :=
  { s with ports := {}, scan := s.scan.char c }

/-- Past the next command of the schedule. -/
def State.pop (s : State) : State :=
  { s with script := s.script.tail }

/-- A command at the front of the schedule. -/
def State.push (s : State) (c : Command) : State :=
  { s with script := c :: s.script }

end Sys2Proof.Machine
end

