-- ==== Sys2Proof/Machine/BinConv.lean ====
section
/-! DEFINITION. INT2BIN and FRAC2BIN, the BinaryConverter (41_binconv.md). -/

namespace Sys2Proof.Machine

/-- The loop of INT2BIN (41_binconv.md R120): the new bit goes in front. `fuel` bounds the halvings. -/
def int2binLoop : Nat → Nat → Bits → Bits
  | 0, _, w => w
  | fuel + 1, n, w => if n = 0 then w else int2binLoop fuel (n / 2) ((n % 2 == 1) :: w)

/-- INT2BIN (R120): total for all `n`; `n` halvings are more than enough. -/
def int2bin (n : Nat) : Bits :=
  if n = 0 then [false] else int2binLoop n n []

/-- The loop of FRAC2BIN (R123): `count` bits from the working value `t / d`. -/
def frac2binLoop : Nat → Nat → Nat → Bits
  | 0, _, _ => []
  | count + 1, d, t =>
    if d ≤ 2 * t then true :: frac2binLoop count d (2 * t - d)
    else false :: frac2binLoop count d (2 * t)

/-- FRAC2BIN (R123): exact, 23 bits, truncated. -/
def frac2bin (f k : Nat) : Bits :=
  frac2binLoop Config.mantW (10 ^ k) f

/-! ### Meanings -/

/-- FRAC2BIN used alone, on its domain `F < 10^K` (R123). -/
def execFrac2bin (f k : Nat) (s : State) : Host.Outcome State Fault Refusal :=
  if f < 10 ^ k then .next (s.drive { bin := { fb := some (vec 23 (frac2bin f k)) } })
  else .refused .outsideDomain

/-- INT2BIN used alone (R120). -/
def execInt2bin (int : BitVec 64) (s : State) : Host.Outcome State Fault Refusal :=
  .next (s.drive { bin :=
    { w := some (int2bin int.toNat), kw := some (int2bin int.toNat).length } })

end Sys2Proof.Machine
end

