-- ==== Sys2Proof/Machine/Normalize.lean ====
section
/-! DEFINITION. NORMALIZE, the block `int_to_fp_normalizer` (42_normalize.md). -/

namespace Sys2Proof.Machine

/-- NormalizedForm (10_state.md R30). -/
structure Normalized where
  mant : Bits
  mlen : Nat
  bexp : Int
  deriving DecidableEq, Repr

/-- NORM.FRAC (42_normalize.md R132): `p` is the least index of a 1 in `FB`. -/
def normFrac (fb : Bits) : Bits × Int :=
  let p := fb.idxOf true
  (fb.drop (p + 1) ++ rep false (p + 1), Config.bias - (p + 1))

/-- NORM.ZERO (R133). -/
def normZero : Bits × Int :=
  (rep false Config.mantW, 0)

/-- NORM.ONE (R134). -/
def normOne (fb : Bits) : Bits × Int :=
  (fb, Config.bias)

/-- NORM.INT (R135). -/
def normInt (int : Nat) (fb : Bits) : Bits × Int :=
  let w := int2bin int
  ((w.drop 1 ++ fb).take Config.mantW, Config.bias + (w.length - 1))

/-- The case selection of NORMALIZE (R130, R131). -/
def normSelect (int : Nat) (fb : Bits) : Bits × Int :=
  if int = 0 then
    if true ∈ fb then normFrac fb else normZero
  else if int = 1 then normOne fb
  else normInt int fb

/-- NORM.RANGE (R137). -/
def normRange (bexp : Int) : Except ErrorKind Unit :=
  if bexpOutOfRange bexp then .error .rangeError else .ok ()

/-- NORMALIZE (R130). `INT` is unbounded here, so that the range check is as the source states it (R137). -/
def normalize (int : Nat) (fb : Bits) : Except ErrorKind Normalized :=
  let r := normSelect int fb
  match normRange r.2 with
  | .error e => .error e
  | .ok () => .ok { mant := r.1, mlen := Config.mantW, bexp := r.2 }

/-! ### Meanings -/

/-- The output ports after a case row: the range check has not run (assumption log, entry 9). -/
def casePorts (r : Bits × Int) : NormPorts :=
  { mant := some (vec 23 r.1), mlen := some 23#5, bexp := some (bexpPort r.2), rangeErr := none }

/-- NORMALIZE used alone (R130); with `range_err = 1` the other outputs hold no value
(60_exceptions.md R184). -/
def execNormalize (int : BitVec 64) (fb : BitVec 23) (s : State) : Host.Outcome State Fault Refusal :=
  match normalize int.toNat (seq fb) with
  | .ok n =>
    .next (s.drive { norm :=
      { mant := some (vec 23 n.mant), mlen := some (BitVec.ofNat 5 n.mlen), bexp := some (bexpPort n.bexp),
        rangeErr := some false } })
  | .error _ => .next (s.drive { norm := { rangeErr := some true } })

/-- NORM.FRAC used alone (R132), for an `FB` with at least one 1. -/
def execNormFrac (fb : BitVec 23) (s : State) : Host.Outcome State Fault Refusal :=
  if true ∈ seq fb then .next (s.drive { norm := casePorts (normFrac (seq fb)) })
  else .refused .outsideDomain

/-- NORM.ZERO used alone (R133). -/
def execNormZero (s : State) : Host.Outcome State Fault Refusal :=
  .next (s.drive { norm := casePorts normZero })

/-- NORM.ONE used alone (R134). -/
def execNormOne (fb : BitVec 23) (s : State) : Host.Outcome State Fault Refusal :=
  .next (s.drive { norm := casePorts (normOne (seq fb)) })

/-- NORM.INT used alone (R135), for `INT >= 2`. -/
def execNormInt (int : BitVec 64) (fb : BitVec 23) (s : State) : Host.Outcome State Fault Refusal :=
  if 2 ≤ int.toNat then .next (s.drive { norm := casePorts (normInt int.toNat (seq fb)) })
  else .refused .outsideDomain

/-- NORM.RANGE used alone (R137): its one output is `range_err` (60_exceptions.md R184). -/
def execNormRange (bexp : BitVec 10) (s : State) : Host.Outcome State Fault Refusal :=
  match normRange (bexpValue bexp) with
  | .ok () => .next (s.drive { norm := { rangeErr := some false } })
  | .error _ => .next (s.drive { norm := { rangeErr := some true } })

end Sys2Proof.Machine
end

