-- ==== Sys2Proof/Machine/Pack.lean ====
section
/-! DEFINITION. PACK, the block `ieee754_packer` (43_pack.md). -/

namespace Sys2Proof.Machine

/-- The 32 positions in order: sign, exponent, mantissa padded on the right (43_pack.md R151, R152, R154). -/
def packPositions (sign : Bool) (mant : Bits) (mlen bexp : Nat) : Bits :=
  [sign] ++ bitsOfNat Config.expW bexp ++ (mant.take mlen ++ rep false (Config.mantW - mlen))

/-- PACK (R150): both checks (R153, R154) before any position is written. -/
def pack (sign : Bool) (mant : Bits) (mlen : Nat) (bexp : Int) : Except ErrorKind Bits :=
  if bexpOutOfRange bexp then .error .rangeError
  else if Config.mantW < mlen then .error .rangeError
  else .ok (packPositions sign mant mlen bexp.toNat)

/-! ### Meanings -/

/-- PACK used alone on its ports (R150): the word, or `range_err = 1` and no word (60_exceptions.md R184). -/
def execPack (sign : Bool) (mant : BitVec 23) (mlen : BitVec 5) (bexp : BitVec 10) (s : State) :
    Host.Outcome State Fault Refusal :=
  match pack sign (seq mant) mlen.toNat (bexpValue bexp) with
  | .ok p => .next (s.drive { pack := { word := some (vec 32 p), rangeErr := some false } })
  | .error _ => .next (s.drive { pack := { word := none, rangeErr := some true } })

end Sys2Proof.Machine
end

