-- ==== Sys2Proof/Machine/Parse.lean ====
section
/-! DEFINITION. PARSE, the DecimalParser (40_parse.md). -/

namespace Sys2Proof.Machine

/-- PARSE.SIGN (40_parse.md R101): `MINUS` and `S`. -/
def parseSign : Text → Bool × Text
  | [] => (false, [])
  | c :: t => if c = minusCode then (true, t) else (false, c :: t)

/-- PARSE.SPLIT (R102): `IP`, `HASDOT`, `FP`; `d` is the least index of a `'.'`. -/
def parseSplit (body : Text) : Text × Bool × Text :=
  let d := body.idxOf dotCode
  if d < body.length then (body.take d, true, body.drop (d + 1)) else (body, false, [])

/-- The well-formedness of the integer part (R103). -/
def checkIntPart (ip : Text) : Except ErrorKind Unit :=
  if ip.length = 0 then .error .parseError
  else if ip.any fun c => !isDigit c then .error .parseError
  else .ok ()

/-- The value of the integer part (R104). -/
def intValue (ip : Text) : Except ErrorKind (BitVec 64) :=
  if 2 ^ Config.intW ≤ val10 (digitsOf ip) then .error .rangeError
  else .ok (BitVec.ofNat 64 (val10 (digitsOf ip)))

/-- PARSE.INT (R103, R104). -/
def parseInt (ip : Text) : Except ErrorKind (BitVec 64) :=
  match checkIntPart ip with
  | .error e => .error e
  | .ok () => intValue ip

/-- The well-formedness of the fractional part (R105). -/
def checkFracPart (fp : Text) : Except ErrorKind Unit :=
  if fp.any fun c => !isDigit c then .error .parseError else .ok ()

/-- The fractional part as it was typed: `FD`, `K`, `F` (R106). -/
structure Fraction where
  fd : List Digit
  k : Nat
  f : Nat
  deriving DecidableEq, Repr

/-- The value of the fractional part (R106). -/
def fracValue (fp : Text) : Fraction :=
  { fd := digitsOf fp, k := fp.length, f := val10 (digitsOf fp) }

/-- PARSE.FRAC (R105, R106). -/
def parseFrac (fp : Text) : Except ErrorKind Fraction :=
  match checkFracPart fp with
  | .error e => .error e
  | .ok () => .ok (fracValue fp)

/-- PARSE.NEG (R107): the sign of the exact value. -/
def parseNeg (minus : Bool) (int : BitVec 64) (f : Nat) : Bool :=
  minus && (int != 0#64 || f != 0)

/-- DecimalNumber (10_state.md R28), with `MINUS`, which PARSE delivers beside it. -/
structure Decimal where
  minus : Bool
  sign : Bool
  int : BitVec 64
  fd : List Digit
  k : Nat
  f : Nat
  deriving DecidableEq, Repr

/-- PARSE (R100): both checks of form before the check of the value (R108). -/
def parse (t : Text) : Except ErrorKind Decimal :=
  let (minus, body) := parseSign t
  let (ip, _, fp) := parseSplit body
  match checkIntPart ip with
  | .error e => .error e
  | .ok () =>
    match checkFracPart fp with
    | .error e => .error e
    | .ok () =>
      match intValue ip with
      | .error e => .error e
      | .ok int =>
        let fr := fracValue fp
        .ok { minus, sign := parseNeg minus int fr.f, int, fd := fr.fd, k := fr.k, f := fr.f }

/-! ### Meanings -/

/-- PARSE used alone: all its outputs, or the kind it raised and none of them (00_scope.md R15, 40_parse.md
R109). -/
def execParse (t : Text) (s : State) : Host.Outcome State Fault Refusal :=
  match parse t with
  | .ok d =>
    .next (s.drive { parse :=
      { minus := some d.minus, sign := some d.sign, int := some d.int, fd := some d.fd, k := some d.k,
        f := some d.f } })
  | .error e => .next (s.drive { parse := { raised := some e } })

/-- PARSE.SIGN used alone (R101). -/
def execParseSign (t : Text) (s : State) : Host.Outcome State Fault Refusal :=
  .next (s.drive { parse := { minus := some (parseSign t).1, body := some (parseSign t).2 } })

/-- PARSE.SPLIT used alone (R102). -/
def execParseSplit (body : Text) (s : State) : Host.Outcome State Fault Refusal :=
  .next (s.drive { parse :=
    { ip := some (parseSplit body).1, hasDot := some (parseSplit body).2.1,
      fp := some (parseSplit body).2.2 } })

/-- PARSE.INT used alone (R103, R104). -/
def execParseInt (ip : Text) (s : State) : Host.Outcome State Fault Refusal :=
  match parseInt ip with
  | .ok n => .next (s.drive { parse := { int := some n } })
  | .error e => .next (s.drive { parse := { raised := some e } })

/-- PARSE.FRAC used alone (R105, R106). -/
def execParseFrac (fp : Text) (s : State) : Host.Outcome State Fault Refusal :=
  match parseFrac fp with
  | .ok fr => .next (s.drive { parse := { fd := some fr.fd, k := some fr.k, f := some fr.f } })
  | .error e => .next (s.drive { parse := { raised := some e } })

/-- PARSE.NEG used alone (R107). -/
def execParseNeg (minus : Bool) (int : BitVec 64) (f : Nat) (s : State) :
    Host.Outcome State Fault Refusal :=
  .next (s.drive { parse := { sign := some (parseNeg minus int f) } })

end Sys2Proof.Machine
end

