-- ==== Sys2Proof/Machine/Convert.lean ====
section
/-! DEFINITION. CONVERT and the transaction steps (44_convert.md, 70_reset_and_hazards.md). -/

namespace Sys2Proof.Machine

/-- CONVERT after PARSE (44_convert.md R160): FRAC2BIN, NORMALIZE, PACK; the first raise ends it
(60_exceptions.md R186). -/
def convertDecimal (d : Decimal) : Response :=
  match normalize d.int.toNat (frac2bin d.f d.k) with
  | .error e => .error e
  | .ok n =>
    match pack d.sign n.mant n.mlen n.bexp with
    | .error e => .error e
    | .ok p => .ok (vec 32 p)

/-- CONVERT (44_convert.md R160): a function of the text alone (R161). -/
def convert (t : Text) : Response :=
  match parse t with
  | .error e => .error e
  | .ok d => convertDecimal d

/-! ### Meanings -/

/-- CONVERT used alone, on texts of at most `TEXT_MAX` characters (R160). -/
def execConvert (t : Text) (s : State) : Host.Outcome State Fault Refusal :=
  if t.length ≤ Config.textMax then .next (s.drive { conv := some (convert t) })
  else .refused .textTooLong

/-- START (R165), enabled when `BUSY == 0` and `len(T) <= TEXT_MAX`. -/
def execStart (t : Text) (s : State) : Host.Outcome State Fault Refusal :=
  match s.busy with
  | none => .refused .beforeReset
  | some true => .refused .startWhileBusy
  | some false => if t.length ≤ Config.textMax then .next (s.handOver t) else .refused .textTooLong

/-- COMPLETE (R166), enabled when `BUSY == 1`. -/
def execComplete (s : State) : Host.Outcome State Fault Refusal :=
  match s.busy with
  | none => .refused .beforeReset
  | some false => .refused .completeWhileIdle
  | some true =>
    match s.request with
    | none => .fault .textUnwritten
    | some t => .next (s.publish (convert t))

/-- READ (R167), enabled when `RSP_VALID == 1`. What it returns is on the host's side (assumption log, entry
12). -/
def execRead (s : State) : Host.Outcome State Fault Refusal :=
  match s.rspValid with
  | none => .refused .beforeReset
  | some false => .refused .readWithoutResponse
  | some true =>
    match s.response with
    | none => .refused .responseUnwritten
    | some r => .next (s.deliver r)

/-- RESET (70_reset_and_hazards.md R210, R211), enabled always. -/
def execReset (s : State) : Host.Outcome State Fault Refusal :=
  .next s.clear

/-- With nothing scheduled, the block takes its own step if a transaction is in flight (70_reset_and_hazards.md
R218) and is idle otherwise, keeping its response (60_exceptions.md R196) and driving no port. -/
def idleStep (s : State) : Host.Outcome State Fault Refusal :=
  if s.busy = some true then execComplete s else .next (s.drive {})

end Sys2Proof.Machine
end

