-- ==== Sys2Proof/Machine/Formats.lean ====
section
/-! DEFINITION. The rows that are words of a format: character codes in their place in a text (30_encoding.md
R71 to R74), status codes and result words as the host reads them (R79 to R85). -/

namespace Sys2Proof.Machine

/-! ### Characters -/

/-- CHAR.MINUS (30_encoding.md R71, R74). -/
def execCharMinus (s : State) : Host.Outcome State Fault Refusal :=
  .next (s.scanChar .minus)

/-- CHAR.DOT (R71, R74). -/
def execCharDot (s : State) : Host.Outcome State Fault Refusal :=
  .next (s.scanChar .dot)

/-- CHAR.DIGIT0_7 (R71). -/
def execCharDigit07 (d : BitVec 3) (s : State) : Host.Outcome State Fault Refusal :=
  .next (s.scanChar (.digit (digit07 d)))

/-- CHAR.DIGIT8_9 (R71). -/
def execCharDigit89 (d0 : BitVec 1) (s : State) : Host.Outcome State Fault Refusal :=
  .next (s.scanChar (.digit (digit89 d0)))

/-- CHAR.ILLEGAL (R74), for a code without a meaning. -/
def execCharIllegal (code : Byte) (s : State) : Host.Outcome State Fault Refusal :=
  if charClass code = .illegal then .next (s.scanChar .illegal) else .refused .outsideDomain

/-! ### Status codes -/

/-- The host takes a status: under an error kind `P` and `WORD` hold no value (R85). -/
def State.hostStatus (s : State) (st : Status) : State :=
  { s with ports := {}, host :=
    { status := some st, word := if st = .ok then s.host.word else none } }

/-- STATUS.OK (R85). -/
def execStatusOk (s : State) : Host.Outcome State Fault Refusal :=
  .next (s.hostStatus .ok)

/-- STATUS.PARSE_ERROR (R85). -/
def execStatusParseError (s : State) : Host.Outcome State Fault Refusal :=
  .next (s.hostStatus .parseError)

/-- STATUS.RANGE_ERROR (R85). -/
def execStatusRangeError (s : State) : Host.Outcome State Fault Refusal :=
  .next (s.hostStatus .rangeError)

/-- STATUS.RESERVED: never produced (R85), so refused. -/
def execStatusReserved (_s : State) : Host.Outcome State Fault Refusal :=
  .refused .statusReserved

/-! ### Result words -/

/-- F32 (R80): the host takes the word with these fields. -/
def execF32 (sign : Bool) (exponent : BitVec 8) (mantissa : BitVec 23) (s : State) :
    Host.Outcome State Fault Refusal :=
  .next { s with ports := {}, host := { s.host with word := some (f32Word sign exponent mantissa) } }

/-- `P[i]` of a result word, `WORD[31-i]` (R83). -/
def position (w : BitVec 32) (i : Nat) : Bool :=
  w.getMsbD i

/-- The exponent field of a result word (R80). -/
def exponentField (w : BitVec 32) : Nat :=
  (w.extractLsb' 23 8).toNat

/-- The mantissa field of a result word (R80). -/
def mantissaField (w : BitVec 32) : Nat :=
  (w.extractLsb' 0 23).toNat

/-- The value a pattern stands for (R79): normal numbers and zero; the other patterns have no stated meaning
(R87, 93_implementation_defined.md U3). -/
def f32Value (w : BitVec 32) : Option ℚ :=
  let e := exponentField w
  let m := mantissaField w
  let σ : ℚ := if position w Config.signPos then -1 else 1
  if 1 ≤ e ∧ e ≤ 254 then some (σ * (1 + m / 2 ^ 23) * 2 ^ ((e : Int) - 127))
  else if e = 0 ∧ m = 0 then some 0
  else none

end Sys2Proof.Machine
end

