-- ==== Sys2Proof/Machine/Dispatch.lean ====
section
/-! DEFINITION. Each row's meaning, one arm a constructor. -/

namespace Sys2Proof.Machine

def exec (i : Instr) (s : State) : Host.Outcome State Fault Refusal :=
  match i with
  | .parse t => Sys2Proof.Machine.execParse t s
  | .parseSign t => Sys2Proof.Machine.execParseSign t s
  | .parseSplit body => Sys2Proof.Machine.execParseSplit body s
  | .parseInt ip => Sys2Proof.Machine.execParseInt ip s
  | .parseFrac fp => Sys2Proof.Machine.execParseFrac fp s
  | .parseNeg minus int f => Sys2Proof.Machine.execParseNeg minus int f s
  | .frac2bin f k => Sys2Proof.Machine.execFrac2bin f k s
  | .int2bin int => Sys2Proof.Machine.execInt2bin int s
  | .normalize int fb => Sys2Proof.Machine.execNormalize int fb s
  | .normFrac fb => Sys2Proof.Machine.execNormFrac fb s
  | .normZero => Sys2Proof.Machine.execNormZero s
  | .normOne fb => Sys2Proof.Machine.execNormOne fb s
  | .normInt int fb => Sys2Proof.Machine.execNormInt int fb s
  | .normRange bexp => Sys2Proof.Machine.execNormRange bexp s
  | .pack sign mant mlen bexp => Sys2Proof.Machine.execPack sign mant mlen bexp s
  | .convert t => Sys2Proof.Machine.execConvert t s
  | .start t => Sys2Proof.Machine.execStart t s
  | .complete => Sys2Proof.Machine.execComplete s
  | .read => Sys2Proof.Machine.execRead s
  | .reset => Sys2Proof.Machine.execReset s
  | .charMinus => Sys2Proof.Machine.execCharMinus s
  | .charDot => Sys2Proof.Machine.execCharDot s
  | .charDigit07 d => Sys2Proof.Machine.execCharDigit07 d s
  | .charDigit89 d0 => Sys2Proof.Machine.execCharDigit89 d0 s
  | .charIllegal code => Sys2Proof.Machine.execCharIllegal code s
  | .statusOk => Sys2Proof.Machine.execStatusOk s
  | .statusParseError => Sys2Proof.Machine.execStatusParseError s
  | .statusRangeError => Sys2Proof.Machine.execStatusRangeError s
  | .statusReserved => Sys2Proof.Machine.execStatusReserved s
  | .f32 sign exponent mantissa => Sys2Proof.Machine.execF32 sign exponent mantissa s

end Sys2Proof.Machine
end

