-- ==== Sys2Proof/Machine/Step.lean ====
section
/-! DEFINITION. One step: the schedule says which agent moves next (assumption log, entry 1). -/

namespace Sys2Proof.Machine

/-- The next command of the schedule is decoded and run; with nothing scheduled the block moves by
itself. -/
def step (s : State) : Host.Outcome State Fault Refusal :=
  match s.script with
  | [] => idleStep s
  | c :: _ =>
    match decode c with
    | .error _ => .refused .undecodable
    | .ok i => exec i s.pop

/-- The table's word at the front of the schedule. -/
def State.withFetchWord (s : State) (nbits w : Nat) : State :=
  s.push (tableCommand nbits w)

end Sys2Proof.Machine
end

