-- ==== Sys2Proof/Safety.lean ====
section
/-! DEFINITION. What a claim calls a good state and a safe run, and the terms the claims are stated in: the
grammar of the text format (30_encoding.md R72), the closed form of a conversion (44_convert.md R162), and the
reading of a text one character after another. -/

namespace Sys2Proof.Machine

/-! ### States -/

/-- The protocol invariant: 44_convert.md R168, with 10_state.md R22, R23 and 20_memory.md R51, R64. -/
structure State.Inv (s : State) : Prop where
  /-- The text buffer is in its canonical form. -/
  textWf : Memory.wf s.text = true
  /-- Every cell is one of `TEXT[0 .. TEXT_MAX-1]` (R22). -/
  textInRange : ∀ c ∈ s.text, c.1 < Config.textMax
  /-- Before the first RESET neither bit holds a value (70_reset_and_hazards.md R213). -/
  bothOrNeither : s.busy = none ↔ s.rspValid = none
  /-- `BUSY` and `RSP_VALID` are never both 1 (R168). -/
  notBoth : ¬(s.busy = some true ∧ s.rspValid = some true)
  /-- From START on, the text of the last START is in the buffer (R59, R165). -/
  requestHeld : s.busy = some true ∨ s.rspValid = some true →
    ∃ t, s.request = some t ∧ t.length ≤ Config.textMax
  /-- Without a valid response `STATUS`, `P` and `WORD` hold no value (R23, R35, R165). -/
  noResponse : s.rspValid ≠ some true → s.status = none ∧ s.p = none
  /-- A valid response is that of the text of the last START (R168). -/
  responseOf : s.rspValid = some true → ∀ t, s.request = some t →
    s.status = some (convert t).status ∧ s.p = (convert t).bits

/-- The step does not stop with a fault. -/
def State.Safe (s : State) : Prop :=
  ∀ r, step s ≠ .fault r

/-- A row that is a step of the transaction protocol and writes the block's interface state: START, COMPLETE
and RESET (44_convert.md R165, R166, 70_reset_and_hazards.md R210). -/
def writesInterface : Instr → Bool
  | .parse _ => false
  | .parseSign _ => false
  | .parseSplit _ => false
  | .parseInt _ => false
  | .parseFrac _ => false
  | .parseNeg _ _ _ => false
  | .frac2bin _ _ => false
  | .int2bin _ => false
  | .normalize _ _ => false
  | .normFrac _ => false
  | .normZero => false
  | .normOne _ => false
  | .normInt _ _ => false
  | .normRange _ => false
  | .pack _ _ _ _ => false
  | .convert _ => false
  | .start _ => true
  | .complete => true
  | .read => false
  | .reset => true
  | .charMinus => false
  | .charDot => false
  | .charDigit07 _ => false
  | .charDigit89 _ => false
  | .charIllegal _ => false
  | .statusOk => false
  | .statusParseError => false
  | .statusRangeError => false
  | .statusReserved => false
  | .f32 _ _ _ => false

/-- A row that is an operation or a sub-block used alone, with output ports of its own (10_state.md R32,
44_convert.md R169). -/
def drivesPorts : Instr → Bool
  | .parse _ => true
  | .parseSign _ => true
  | .parseSplit _ => true
  | .parseInt _ => true
  | .parseFrac _ => true
  | .parseNeg _ _ _ => true
  | .frac2bin _ _ => true
  | .int2bin _ => true
  | .normalize _ _ => true
  | .normFrac _ => true
  | .normZero => true
  | .normOne _ => true
  | .normInt _ _ => true
  | .normRange _ => true
  | .pack _ _ _ _ => true
  | .convert _ => true
  | .start _ => false
  | .complete => false
  | .read => false
  | .reset => false
  | .charMinus => false
  | .charDot => false
  | .charDigit07 _ => false
  | .charDigit89 _ => false
  | .charIllegal _ => false
  | .statusOk => false
  | .statusParseError => false
  | .statusRangeError => false
  | .statusReserved => false
  | .f32 _ _ _ => false

/-- Instructions run one after another, stopping where one stops. -/
def runAll : List Instr → State → Host.Outcome State Fault Refusal
  | [], s => .next s
  | i :: is, s =>
    match exec i s with
    | .next s' => runAll is s'
    | .fault r => .fault r
    | .refused r => .refused r

/-! ### Numerals -/

/-- A code from `'0'` to `'9'` (30_encoding.md R71). -/
def IsDigitCode (c : Byte) : Prop :=
  0x30 ≤ c.toNat ∧ c.toNat ≤ 0x39

/-- The base-10 value of digit characters, as 40_parse.md R104 accumulates it. -/
def numVal (s : Text) : Nat :=
  s.foldl (fun n c => 10 * n + (c.toNat - 0x30)) 0

/-- The parts of a text of the grammar (30_encoding.md R72). -/
structure Numeral where
  minus : Bool
  int : Text
  dot : Bool
  frac : Text
  deriving DecidableEq, Repr

/-- `[ '-' ] int_part [ '.' frac_part ]` (R72). -/
def Numeral.text (n : Numeral) : Text :=
  (if n.minus then [0x2D#8] else []) ++ n.int ++ (if n.dot then 0x2E#8 :: n.frac else [])

/-- One or more digits, and after a dot zero or more (R72). -/
def Numeral.Grammar (n : Numeral) : Prop :=
  n.int ≠ [] ∧ (∀ c ∈ n.int, IsDigitCode c) ∧ (∀ c ∈ n.frac, IsDigitCode c) ∧
    (n.dot = false → n.frac = [])

/-- The text is outside the grammar (R72). -/
def Malformed (t : Text) : Prop :=
  ∀ n : Numeral, n.Grammar → n.text ≠ t

/-- `SIGN`: a `'-'` and a value that is not zero (40_parse.md R107). -/
def Numeral.negative (n : Numeral) : Bool :=
  n.minus && decide (numVal n.int ≠ 0 ∨ numVal n.frac ≠ 0)

/-- The exact magnitude `INT + F / 10^K` (40_parse.md R107). -/
def Numeral.magnitude (n : Numeral) : ℚ :=
  numVal n.int + numVal n.frac / 10 ^ n.frac.length

/-- `X = INT × 2^23 + (F × 2^23) div 10^K` (44_convert.md R162). -/
def Numeral.window (n : Numeral) : Nat :=
  numVal n.int * 2 ^ 23 + numVal n.frac * 2 ^ 23 / 10 ^ n.frac.length

/-- The mantissa field of a non-zero `X` (42_normalize.md R139). -/
def mantissaOf (x : Nat) : Nat :=
  if 23 ≤ x.log2 then x / 2 ^ (x.log2 - 23) - 2 ^ 23 else x * 2 ^ (23 - x.log2) - 2 ^ 23

/-- The result word of a sign and an `X` (44_convert.md R162). -/
def wordOf (sign : Bool) (x : Nat) : Nat :=
  if x = 0 then sign.toNat * 2 ^ 31
  else sign.toNat * 2 ^ 31 + (104 + x.log2) * 2 ^ 23 + mantissaOf x

/-- What PARSE makes of the characters read: the checks that need the whole text (40_parse.md R103, R104,
R107). -/
def Scan.finish : Scan → Except ErrorKind Decimal
  | .parseError => .error .parseError
  | .reading r =>
    if r.ip = [] then .error .parseError
    else if 2 ^ 64 ≤ val10 r.ip then .error .rangeError
    else .ok
      { minus := r.minus
        sign := r.minus && decide (val10 r.ip ≠ 0 ∨ val10 r.fp ≠ 0)
        int := BitVec.ofNat 64 (val10 r.ip)
        fd := r.fp
        k := r.fp.length
        f := val10 r.fp }

end Sys2Proof.Machine
end

