-- ==== Sys2Proof/Certificates/Slice0/Obligations.lean ====
section
/-! DEFINITION. The statements for the provers. `next` states are given whole where a row has one effect, so
that a statement of a result is also its frame and says that the row completes. Every row drives the output
ports anew: an output not named in `ports` holds no value (10_state.md R32, log entry 8). -/

open Sys2Proof Sys2Proof.Machine

/-! ### Encoding -/

/-- Derived from 30_encoding.md R71, R80, R85, R89 and the model's selector bytes (log entry 2): no bit of an
encoding is dropped. -/
def Obligations.DecodeOfEncodeIsIdentity : Prop :=
  ∀ i : Instr, i.wf = true → decode (encode i) = .ok i

/-- Each command has at most one reading, and what it reads to is in the row's domain (log entry 2). -/
def Obligations.DecodableCommandsAreEncodings : Prop :=
  ∀ (c : Command) (i : Instr), decode c = .ok i → i.wf = true ∧ encode i = c

/-- Words written out from 30_encoding.md R71, R80 and R85. That a code stands in one byte, and a result word in
four bytes with the least significant one first, is the model's (log entry 2; 20_memory.md R54: the block has no
byte order). -/
def Obligations.SampleWordsDecode : Prop :=
  decode ⟨.char8, [0b00101101#8]⟩ = .ok .charMinus ∧
  decode ⟨.char8, [0b00101110#8]⟩ = .ok .charDot ∧
  decode ⟨.char8, [0b00110101#8]⟩ = .ok (.charDigit07 5#3) ∧
  decode ⟨.char8, [0b00111001#8]⟩ = .ok (.charDigit89 1#1) ∧
  decode ⟨.char8, [0b00101011#8]⟩ = .ok (.charIllegal 0x2B#8) ∧
  decode ⟨.status2, [0b01#8]⟩ = .ok .statusParseError ∧
  decode ⟨.word32, [0x00#8, 0x00#8, 0xB0#8, 0x40#8]⟩ =
    .ok (.f32 false 0b10000001#8 0b01100000000000000000000#23)

/-- 30_encoding.md R71 for all 256 codes: the class and the digit value. -/
def Obligations.CharacterCodesHaveTheirClass : Prop :=
  ∀ c : Byte,
    (charClass c = .minus ↔ c.toNat = 0x2D) ∧
    (charClass c = .dot ↔ c.toNat = 0x2E) ∧
    (∀ d : Digit, charClass c = .digit d ↔ 0x30 ≤ c.toNat ∧ c.toNat ≤ 0x39 ∧ d.val = c.toNat - 0x30) ∧
    (charClass c = .illegal ↔
      c.toNat ≤ 0x2C ∨ c.toNat = 0x2F ∨ 0x3A ≤ c.toNat)

/-- 30_encoding.md R89: the value on the `int` port (and on `fb` inside case 1) selects the case row. -/
def Obligations.NormalizerPortsSelectTheirCase : Prop :=
  ∀ (int : BitVec 64) (fb : BitVec 23),
    (int.toNat = 0 → fb.toNat = 0 → decode (portsCommand int fb) = .ok .normZero) ∧
    (int.toNat = 0 → fb.toNat ≠ 0 → decode (portsCommand int fb) = .ok (.normFrac fb)) ∧
    (int.toNat = 1 → decode (portsCommand int fb) = .ok (.normOne fb)) ∧
    (2 ≤ int.toNat → decode (portsCommand int fb) = .ok (.normInt int fb))

/-! ### The step -/

/-- Derived from 10_state.md R20 and the schedule (log entry 1): when the command at the front of the schedule
decodes to `i`, the step is `exec i` with that command taken off. -/
def Obligations.StepRunsTheDecodedCommand : Prop :=
  ∀ (s : State) (c : Command) (rest : List Command) (i : Instr),
    s.script = c :: rest → decode c = .ok i → step s = exec i { s with script := rest }

/-- Derived: a table word put at the front of the schedule is what the next step runs (log entry 4). -/
def Obligations.StepRunsTheTableWord : Prop :=
  ∀ (s : State) (nbits w : Nat) (i : Instr),
    decodeTableWord nbits w = some i → step (s.withFetchWord nbits w) = exec i s

/-- Derived from 70_reset_and_hazards.md R218 and 60_exceptions.md R196: with nothing scheduled the block
completes a transaction in flight and is idle otherwise (log entry 1). -/
def Obligations.StepWithNothingScheduled : Prop :=
  ∀ s : State, s.script = [] →
    (s.busy = some true → step s = exec .complete s) ∧
      (s.busy ≠ some true → step s = .next { s with ports := {} })

/-! ### PARSE -/

/-- 40_parse.md R101: exactly one `'-'`, at index 0, is stripped. -/
def Obligations.ParseSignStripsOneMarker : Prop :=
  ∀ (t : Text) (s : State),
    (∀ rest, t = 0x2D#8 :: rest → exec (.parseSign t) s =
      .next { s with ports := { parse := { minus := some true, body := some rest } } }) ∧
    (t.head? ≠ some 0x2D#8 → exec (.parseSign t) s =
      .next { s with ports := { parse := { minus := some false, body := some t } } })

/-- 40_parse.md R102: the split is at the first `'.'`. -/
def Obligations.ParseSplitIsAtTheFirstDot : Prop :=
  ∀ (b : Text) (s : State),
    (0x2E#8 ∉ b → exec (.parseSplit b) s =
      .next { s with ports := { parse := { ip := some b, hasDot := some false, fp := some [] } } }) ∧
    (∀ ip fp, b = ip ++ 0x2E#8 :: fp → 0x2E#8 ∉ ip → exec (.parseSplit b) s =
      .next { s with ports := { parse := { ip := some ip, hasDot := some true, fp := some fp } } })

/-- 40_parse.md R103, R104: form first, then the 64-bit width; nothing wraps. -/
def Obligations.ParseIntChecksFormThenWidth : Prop :=
  ∀ (ip : Text) (s : State),
    (ip = [] ∨ (∃ c ∈ ip, ¬IsDigitCode c) → exec (.parseInt ip) s =
      .next { s with ports := { parse := { int := none, raised := some .parseError } } }) ∧
    (ip ≠ [] → (∀ c ∈ ip, IsDigitCode c) → 2 ^ 64 ≤ numVal ip → exec (.parseInt ip) s =
      .next { s with ports := { parse := { int := none, raised := some .rangeError } } }) ∧
    (ip ≠ [] → (∀ c ∈ ip, IsDigitCode c) → numVal ip < 2 ^ 64 → ∃ n : BitVec 64,
      n.toNat = numVal ip ∧ exec (.parseInt ip) s =
        .next { s with ports := { parse := { int := some n, raised := none } } })

/-- 40_parse.md R105, R106: any non-digit is a ParseError; the digits are kept as typed. -/
def Obligations.ParseFracKeepsTheTypedDigits : Prop :=
  ∀ (fp : Text) (s : State),
    ((∃ c ∈ fp, ¬IsDigitCode c) → exec (.parseFrac fp) s =
      .next { s with ports := { parse :=
        { fd := none, k := none, f := none, raised := some .parseError } } }) ∧
    ((∀ c ∈ fp, IsDigitCode c) → numVal fp < 10 ^ fp.length ∧ ∃ fd : List Digit,
      fd.map (fun d => 0x30 + d.val) = fp.map BitVec.toNat ∧ exec (.parseFrac fp) s =
        .next { s with ports := { parse :=
          { fd := some fd, k := some fp.length, f := some (numVal fp), raised := none } } })

/-- 40_parse.md R107: the sign is that of the exact value. -/
def Obligations.ParseNegIsTheSignOfTheValue : Prop :=
  ∀ (minus : Bool) (int : BitVec 64) (f : Nat) (s : State), ∃ sign : Bool,
    (sign = true ↔ minus = true ∧ (int.toNat ≠ 0 ∨ f ≠ 0)) ∧
    exec (.parseNeg minus int f) s = .next { s with ports := { parse := { sign := some sign } } }

/-- 40_parse.md R100 on a text of the grammar whose integer part fits: all the values of the
DecimalNumber. -/
def Obligations.ParseOfANumeralGivesItsValues : Prop :=
  ∀ (n : Numeral) (s : State), n.Grammar → numVal n.int < 2 ^ 64 → ∃ fd : List Digit,
    fd.map (fun d => 0x30 + d.val) = n.frac.map BitVec.toNat ∧
    exec (.parse n.text) s = .next { s with ports := { parse :=
      { minus := some n.minus, sign := some n.negative, int := some (BitVec.ofNat 64 (numVal n.int)),
        fd := some fd, k := some n.frac.length, f := some (numVal n.frac), raised := none } } }

/-- 30_encoding.md R72, 40_parse.md R108, R109: a text outside the grammar raises ParseError, however wide its
integer part, and delivers no DecimalNumber. -/
def Obligations.ParseOfAMalformedTextRaises : Prop :=
  ∀ (t : Text) (s : State), Malformed t → exec (.parse t) s = .next { s with ports := { parse :=
    { minus := none, sign := none, int := none, fd := none, k := none, f := none,
      raised := some .parseError } } }

/-- 40_parse.md R104, R109: a text of the grammar whose integer part is `2^64` or more raises RangeError. -/
def Obligations.ParseOfAWideIntegerRaises : Prop :=
  ∀ (n : Numeral) (s : State), n.Grammar → 2 ^ 64 ≤ numVal n.int →
    exec (.parse n.text) s = .next { s with ports := { parse :=
      { minus := none, sign := none, int := none, fd := none, k := none, f := none,
        raised := some .rangeError } } }

/-- Derived from 30_encoding.md R73, R74 and 40_parse.md R101 to R107: reading a text one character row after
another comes to what PARSE makes of the whole text (the rows' effect on the context is the model's reading,
log entry 10). -/
def Obligations.CharacterRowsReadWhatParseReads : Prop :=
  ∀ (t : Text) (s : State), s.scan = .reading {} → ∃ sc : Scan,
    runAll (t.map decodeChar) s =
      .next { s with scan := sc, ports := if t = [] then s.ports else {} } ∧
    sc.finish = parse t

/-- Derived from 30_encoding.md R74 (log entry 10): a `'-'` away from index 0, a second `'.'` and an illegal
code are ParseErrors for good; a `'-'` at index 0, the first `'.'` and a digit are taken where they stand. -/
def Obligations.CharacterRowsInTheirPlace : Prop :=
  ∀ (s : State),
    (s.scan = .parseError →
      exec .charMinus s = .next { s with ports := {} } ∧ exec .charDot s = .next { s with ports := {} } ∧
      (∀ d, exec (.charDigit07 d) s = .next { s with ports := {} }) ∧
      (∀ d, exec (.charDigit89 d) s = .next { s with ports := {} })) ∧
    (∀ c : Byte, c.toNat ∉ legalCodes →
      exec (.charIllegal c) s = .next { s with ports := {}, scan := .parseError }) ∧
    (∀ r, s.scan = .reading r →
      (exec .charMinus s = .next { s with
        ports := {}
        scan := if r.pos = 0 then .reading { r with pos := 1, minus := true } else .parseError }) ∧
      (exec .charDot s = .next { s with
        ports := {}
        scan := if r.hasDot then .parseError
          else .reading { r with pos := r.pos + 1, hasDot := true } }) ∧
      (∀ d3 : BitVec 3, ∃ d : Digit, d.val = d3.toNat ∧
        exec (.charDigit07 d3) s = .next { s with
          ports := {}
          scan := if r.hasDot then .reading { r with pos := r.pos + 1, fp := r.fp ++ [d] }
            else .reading { r with pos := r.pos + 1, ip := r.ip ++ [d] } }) ∧
      (∀ d1 : BitVec 1, ∃ d : Digit, d.val = 8 + d1.toNat ∧
        exec (.charDigit89 d1) s = .next { s with
          ports := {}
          scan := if r.hasDot then .reading { r with pos := r.pos + 1, fp := r.fp ++ [d] }
            else .reading { r with pos := r.pos + 1, ip := r.ip ++ [d] } }))

/-! ### INT2BIN and FRAC2BIN -/

/-- 41_binconv.md R120, R121: the binary digits spell the number, without a leading zero. -/
def Obligations.Int2binSpellsItsNumber : Prop :=
  ∀ (int : BitVec 64) (s : State), ∃ w : Bits,
    exec (.int2bin int) s = .next { s with ports := { bin := { w := some w, kw := some w.length } } } ∧
    w.foldl (fun n b => 2 * n + b.toNat) 0 = int.toNat ∧
    (int.toNat = 0 → w = [false]) ∧
    (int.toNat ≠ 0 → w.head? = some true ∧ w.length = int.toNat.log2 + 1) ∧
    1 ≤ w.length ∧ w.length ≤ 64

/-- 41_binconv.md R124: the window is the floor of `F × 2^23 / 10^K`, cut off and never rounded. -/
def Obligations.Frac2binIsTheTruncatedWindow : Prop :=
  ∀ (f k : Nat) (s : State), f < 10 ^ k → ∃ fb : BitVec 23,
    exec (.frac2bin f k) s = .next { s with ports := { bin := { fb := some fb } } } ∧
    fb.toNat = f * 2 ^ 23 / 10 ^ k ∧
    fb.toNat * 10 ^ k ≤ f * 2 ^ 23 ∧ f * 2 ^ 23 < (fb.toNat + 1) * 10 ^ k

/-- Derived from 41_binconv.md R123, R124, R126: on the domain `F < 10^K` the loop gives 23 bits, and bit `i` is the
`i`-th binary place of `F / 10^K`. -/
def Obligations.Frac2binAlwaysGives23Bits : Prop :=
  ∀ (f k : Nat), f < 10 ^ k → (frac2bin f k).length = 23 ∧
    ∀ i, i < 23 → (frac2bin f k)[i]? = some (decide (f * 2 ^ (i + 1) / 10 ^ k % 2 = 1))

/-- Derived from 41_binconv.md R124: only the rational `F / 10^K` counts, not how many zeros were typed. -/
def Obligations.Frac2binDependsOnTheRational : Prop :=
  ∀ (f k f' k' : Nat) (s : State), f < 10 ^ k → f * 10 ^ k' = f' * 10 ^ k →
    exec (.frac2bin f k) s = exec (.frac2bin f' k') s

/-! ### NORMALIZE -/

/-- 42_normalize.md R132: the bits after the first 1, padded on the right. -/
def Obligations.NormFracKeepsTheBitsAfterTheFirstOne : Prop :=
  ∀ (fb : BitVec 23) (p : Nat) (s : State),
    p < 23 → fb.getMsbD p = true → (∀ i, i < p → fb.getMsbD i = false) → ∃ b : BitVec 10,
      b.toInt = 127 - (p + 1) ∧
      exec (.normFrac fb) s = .next { s with ports := { norm :=
        { mant := some (fb <<< (p + 1)), mlen := some 23#5, bexp := some b, rangeErr := none } } }

/-- 42_normalize.md R133 and R134: true zero, and the copied window. -/
def Obligations.NormZeroAndNormOneResults : Prop :=
  ∀ (fb : BitVec 23) (s : State),
    exec .normZero s = .next { s with ports := { norm :=
      { mant := some 0#23, mlen := some 23#5, bexp := some 0#10, rangeErr := none } } } ∧
    exec (.normOne fb) s = .next { s with ports := { norm :=
      { mant := some fb, mlen := some 23#5, bexp := some 127#10, rangeErr := none } } }

/-- 42_normalize.md R135: the first 23 bits after the leading 1 of `W ++ FB`, in the port form of the rule. -/
def Obligations.NormIntTruncatesTheConcatenation : Prop :=
  ∀ (int : BitVec 64) (fb : BitVec 23) (kw : Nat) (s : State),
    2 ≤ int.toNat → 2 ^ (kw - 1) ≤ int.toNat → int.toNat < 2 ^ kw → ∃ (m : BitVec 23) (b : BitVec 10),
      m.toNat = (int.toNat * 2 ^ 23 + fb.toNat) / 2 ^ (kw - 1) % 2 ^ 23 ∧
      b.toInt = 127 + ((kw : Int) - 1) ∧
      exec (.normInt int fb) s = .next { s with ports := { norm :=
        { mant := some m, mlen := some 23#5, bexp := some b, rangeErr := none } } }

/-- 42_normalize.md R130, R131: NORMALIZE gives what the one case the ports select gives, and finds it in
range. -/
def Obligations.NormalizeRunsTheSelectedCase : Prop :=
  ∀ (int : BitVec 64) (fb : BitVec 23) (i : Instr) (s : State),
    decode (portsCommand int fb) = .ok i → ∃ np : NormPorts,
      exec i s = .next { s with ports := { norm := np } } ∧
      exec (.normalize int fb) s =
        .next { s with ports := { norm := { np with rangeErr := some false } } }

/-- 42_normalize.md R139: the closed form, for all `2^64 × 2^23` inputs. -/
def Obligations.NormalizeClosedForm : Prop :=
  ∀ (int : BitVec 64) (fb : BitVec 23) (s : State), ∃ (m : BitVec 23) (b : BitVec 10),
    exec (.normalize int fb) s = .next { s with ports := { norm :=
      { mant := some m, mlen := some 23#5, bexp := some b, rangeErr := some false } } } ∧
    (int.toNat * 2 ^ 23 + fb.toNat = 0 → m.toNat = 0 ∧ b.toInt = 0) ∧
    (∀ x, x = int.toNat * 2 ^ 23 + fb.toNat → x ≠ 0 →
      x.log2 ≤ 86 ∧ b.toInt = 104 + x.log2 ∧ m.toNat = mantissaOf x)

/-- 42_normalize.md R138: which biased exponents each case gives, that the length is 23 and that `range_err` is
always 0. -/
def Obligations.NormalizeReachableResults : Prop :=
  ∀ (int : BitVec 64) (fb : BitVec 23) (s : State), ∃ (m : BitVec 23) (b : BitVec 10),
    exec (.normalize int fb) s = .next { s with ports := { norm :=
      { mant := some m, mlen := some 23#5, bexp := some b, rangeErr := some false } } } ∧
    (int.toNat = 0 → fb.toNat = 0 → b.toInt = 0) ∧
    (int.toNat = 0 → fb.toNat ≠ 0 → 104 ≤ b.toInt ∧ b.toInt ≤ 126) ∧
    (int.toNat = 1 → b.toInt = 127) ∧
    (2 ≤ int.toNat → 128 ≤ b.toInt ∧ b.toInt ≤ 190)

/-- 42_normalize.md R137: the range check, on every value the port can carry; `range_err` is its one output
(60_exceptions.md R184, log entry 9). -/
def Obligations.NormRangeChecksTheExponent : Prop :=
  ∀ (b : BitVec 10) (s : State),
    (0 ≤ b.toInt ∧ b.toInt ≤ 255 → exec (.normRange b) s =
      .next { s with ports := { norm :=
        { mant := none, mlen := none, bexp := none, rangeErr := some false } } }) ∧
    (b.toInt < 0 ∨ 255 < b.toInt → exec (.normRange b) s = .next { s with ports := { norm :=
      { mant := none, mlen := none, bexp := none, rangeErr := some true } } })

/-- 42_normalize.md R141: the port's two's complement, written, read back and widened. -/
def Obligations.BexpPortCarriesTheExponent : Prop :=
  (∀ e : Int, ((bexpPort e).toNat : Int) = e % 2 ^ 10) ∧
  (∀ b : BitVec 10, bexpValue b =
    ((b.extractLsb' 0 9).toNat : Int) - 512 * ((b.getLsbD 9).toNat : Int)) ∧
  (∀ (b : BitVec 10) (n : Nat), 10 ≤ n → (b.signExtend n).toInt = bexpValue b) ∧
  (∀ e : Int, -512 ≤ e → e ≤ 511 → bexpValue (bexpPort e) = e)

/-! ### PACK -/

/-- 43_pack.md R151, R152, R154, R155: the three fields, position by position, and the word as a number. -/
def Obligations.PackWritesTheThreeFields : Prop :=
  ∀ (sign : Bool) (mant : BitVec 23) (mlen : BitVec 5) (bexp : BitVec 10) (s : State),
    0 ≤ bexp.toInt → bexp.toInt ≤ 255 → mlen.toNat ≤ 23 → ∃ w : BitVec 32,
      exec (.pack sign mant mlen bexp) s =
        .next { s with ports := { pack := { word := some w, rangeErr := some false } } } ∧
      position w 0 = sign ∧
      (∀ j, j < 8 → position w (1 + j) = decide (bexp.toNat / 2 ^ (7 - j) % 2 = 1)) ∧
      (∀ j, j < 23 → position w (9 + j) = (decide (j < mlen.toNat) && mant.getMsbD j)) ∧
      w.toNat = sign.toNat * 2 ^ 31 + bexp.toNat * 2 ^ 23 +
        mant.toNat / 2 ^ (23 - mlen.toNat) * 2 ^ (23 - mlen.toNat)

/-- 43_pack.md R153 and R154, 60_exceptions.md R184: `range_err = 1` and no word. -/
def Obligations.PackRejectsWhatDoesNotFit : Prop :=
  ∀ (sign : Bool) (mant : BitVec 23) (mlen : BitVec 5) (bexp : BitVec 10) (s : State),
    (bexp.toInt < 0 ∨ 255 < bexp.toInt ∨ 23 < mlen.toNat) →
      exec (.pack sign mant mlen bexp) s =
        .next { s with ports := { pack := { word := none, rangeErr := some true } } }

/-! ### CONVERT -/

/-- 44_convert.md R160: CONVERT used alone delivers the outcome of the pipeline for every text the block can
hold, and refuses a longer one. -/
def Obligations.ConvertDeliversTheOutcome : Prop :=
  ∀ (t : Text) (s : State),
    (t.length ≤ Config.textMax →
      exec (.convert t) s = .next { s with ports := { conv := some (convert t) } }) ∧
    (Config.textMax < t.length → exec (.convert t) s = .refused .textTooLong)

/-- 44_convert.md R162: the end-to-end closed form; `X` is the exact magnitude cut to 23 binary places, and the
sign is that of the exact value. -/
def Obligations.ConvertClosedForm : Prop :=
  ∀ n : Numeral, n.Grammar →
    (numVal n.int < 2 ^ 64 → ∃ w : BitVec 32,
      convert n.text = .ok w ∧ w.toNat = wordOf n.negative n.window) ∧
    (n.window : Int) = (n.magnitude * 2 ^ 23).floor ∧
    (n.negative = true ↔ n.minus = true ∧ n.magnitude ≠ 0)

/-- 60_exceptions.md R181, R182, R185: ParseError exactly outside the grammar, RangeError exactly for a
well-formed numeral with an integer part of `2^64` or more. -/
def Obligations.ConvertErrorKinds : Prop :=
  ∀ t : Text,
    (convert t = .error .parseError ↔ Malformed t) ∧
    (convert t = .error .rangeError ↔ ∃ n : Numeral, n.Grammar ∧ n.text = t ∧ 2 ^ 64 ≤ numVal n.int)

/-- 30_encoding.md R86: the patterns the converter can produce. -/
def Obligations.ConvertOutputPatterns : Prop :=
  ∀ (n : Numeral) (w : BitVec 32), n.Grammar → convert n.text = .ok w →
    (exponentField w = 0 ∧ mantissaField w = 0) ∨
    (numVal n.int = 0 ∧ 104 ≤ exponentField w ∧ exponentField w ≤ 126 ∧
      mantissaField w % 2 ^ (127 - exponentField w) = 0) ∨
    (1 ≤ numVal n.int ∧ 127 ≤ exponentField w ∧ exponentField w ≤ 190)

/-- 44_convert.md R163, derived: the result's value against the exact value of the numeral: cut toward zero,
to 23 binary places below 1 and to 24 significant bits from 1 on, with the sign of the value. -/
def Obligations.ConvertTruncatesTowardZero : Prop :=
  ∀ n : Numeral, n.Grammar → numVal n.int < 2 ^ 64 → ∃ (w : BitVec 32) (q : ℚ),
    convert n.text = .ok w ∧ f32Value w = some q ∧
    q = (if n.negative then -|q| else |q|) ∧
    |q| ≤ n.magnitude ∧
    (numVal n.int = 0 → |q| = ((n.magnitude * 2 ^ 23).floor : ℚ) / 2 ^ 23) ∧
    (1 ≤ numVal n.int → n.magnitude < |q| + 2 ^ ((exponentField w : Int) - 150))

/-- Derived from 44_convert.md R162: two texts of the grammar with the same sign marker and the same exact
value convert alike, whatever zeros were typed. -/
def Obligations.ConvertDependsOnTheValue : Prop :=
  ∀ n m : Numeral, n.Grammar → m.Grammar → n.minus = m.minus → n.magnitude = m.magnitude →
    convert n.text = convert m.text

/-! ### The transaction steps -/

/-- 44_convert.md R165: START's writes, the cells above the text kept, the previous response gone; every other
field as it was. The character decoder is set to its first character (the model's choice, log entry 10). -/
def Obligations.StartBeginsATransaction : Prop :=
  ∀ (t : Text) (s : State), s.busy = some false → t.length ≤ Config.textMax → ∃ m : List Host.Cell,
    exec (.start t) s = .next { s with
      text := m, len := some t.length, busy := some true, rspValid := some false, status := none,
      p := none, ports := {}, scan := .reading {} } ∧
    (∀ i, i < t.length → Memory.read m i = t[i]?) ∧
    (∀ i, t.length ≤ i → Memory.read m i = Memory.read s.text i)

/-- 44_convert.md R165, 70_reset_and_hazards.md R215: when START is not enabled. -/
def Obligations.StartIsRefusedWhenNotEnabled : Prop :=
  ∀ (t : Text) (s : State),
    (s.busy = some true → exec (.start t) s = .refused .startWhileBusy) ∧
    (s.busy = some false → Config.textMax < t.length → exec (.start t) s = .refused .textTooLong)

/-- 44_convert.md R166: COMPLETE publishes the outcome of the text in the buffer, every other field as it was;
it is enabled only while a transaction is in flight. -/
def Obligations.CompletePublishesTheConversion : Prop :=
  ∀ s : State,
    (s.busy = some false → exec .complete s = .refused .completeWhileIdle) ∧
    ∀ (n : Nat) (t : Text), s.busy = some true → s.len = some n → t.length = n →
      (∀ i, i < n → Memory.read s.text i = t[i]?) →
      (∀ w, convert t = .ok w → exec .complete s = .next { s with
        status := some .ok, p := some w, rspValid := some true, busy := some false, ports := {} }) ∧
      (convert t = .error .parseError → exec .complete s = .next { s with
        status := some .parseError, p := none, rspValid := some true, busy := some false, ports := {} }) ∧
      (convert t = .error .rangeError → exec .complete s = .next { s with
        status := some .rangeError, p := none, rspValid := some true, busy := some false, ports := {} })

/-- 44_convert.md R167: READ gives the host the status, and the word under OK only; it changes no state of the
block and can be repeated. -/
def Obligations.ReadReturnsTheResponse : Prop :=
  ∀ (s : State) (w : BitVec 32), s.rspValid = some true →
    (s.status = some .ok → s.p = some w → exec .read s =
      .next { s with ports := {}, host := { status := some .ok, word := some w } }) ∧
    (s.status = some .parseError → exec .read s =
      .next { s with ports := {}, host := { status := some .parseError, word := none } }) ∧
    (s.status = some .rangeError → exec .read s =
      .next { s with ports := {}, host := { status := some .rangeError, word := none } })

/-- 44_convert.md R167: READ is refused without a valid response. -/
def Obligations.ReadIsRefusedWithoutAResponse : Prop :=
  ∀ s : State, s.rspValid = some false → exec .read s = .refused .readWithoutResponse

/-- 70_reset_and_hazards.md R210, 10_state.md R35: RESET is enabled in every state, and what it leaves. The
host's side and the schedule stay (log entries 1, 12), the character decoder is at its start (entry 10), nothing
is on the output ports (R32). -/
def Obligations.ResetMakesTheBlockIdle : Prop :=
  ∀ s : State, ∃ t : State, exec .reset s = .next t ∧
    t.busy = some false ∧ t.rspValid = some false ∧ t.status = none ∧ t.p = none ∧ t.len = none ∧
    (∀ i, Memory.read t.text i = none) ∧
    t.ports = {} ∧ t.scan = .reading {} ∧
    t.host = s.host ∧ t.script = s.script

/-- 70_reset_and_hazards.md R213: before the first RESET no step but RESET is enabled. -/
def Obligations.BeforeResetOnlyResetRuns : Prop :=
  ∀ (t : Text) (s : State), s.busy = none → s.rspValid = none →
    exec (.start t) s = .refused .beforeReset ∧ exec .complete s = .refused .beforeReset ∧
    exec .read s = .refused .beforeReset ∧ ∃ u, exec .reset s = .next u ∧ u.busy = some false

/-- 44_convert.md R161, 10_state.md R34: whatever went before, the transaction of a text gives the host the
outcome of that text. -/
def Obligations.TransactionDeliversTheConversion : Prop :=
  ∀ (t : Text) (s : State), s.busy = some false → t.length ≤ Config.textMax → ∃ u : State,
    runAll [.start t, .complete, .read] s = .next u ∧
    u.host = { status := some (convert t).status, word := (convert t).bits } ∧
    u.busy = some false ∧ u.rspValid = some true

/-- 70_reset_and_hazards.md R211: RESET abandons the transaction in flight: no COMPLETE follows, no response is
published, the text is lost; and the same text sent again gives the response it would have given. -/
def Obligations.ResetAbandonsTheTransaction : Prop :=
  ∀ (t : Text) (s : State), s.busy = some true → s.request = some t → t.length ≤ Config.textMax →
    runAll [.reset, .complete] s = .refused .completeWhileIdle ∧
    runAll [.reset, .read] s = .refused .readWithoutResponse ∧
    (∃ r : State, exec .reset s = .next r ∧ ∀ i, Memory.read r.text i = none) ∧
    ∃ u v : State, exec .complete s = .next u ∧
      runAll [.reset, .start t, .complete] s = .next v ∧
      u.rspValid = some true ∧ v.rspValid = some true ∧ v.status = u.status ∧ v.p = u.p

/-- 60_exceptions.md R187: after an error kind the block is idle as after a success, and the next START is
accepted without a clearing step. -/
def Obligations.ErrorsLeaveTheBlockReady : Prop :=
  ∀ (t t' : Text) (s : State), s.busy = some true → s.request = some t → t'.length ≤ Config.textMax →
    ∃ u v : State, exec .complete s = .next u ∧ u.busy = some false ∧
      exec (.start t') u = .next v ∧ v.busy = some true ∧ v.request = some t'

/-- 44_convert.md R164, 70_reset_and_hazards.md R218: with `BUSY = 1` COMPLETE is enabled, and with nothing
else scheduled the step takes it. -/
def Obligations.EveryStartedTransactionCompletes : Prop :=
  ∀ s : State, s.Inv → s.busy = some true → ∃ t : State,
    exec .complete s = .next t ∧ t.busy = some false ∧ t.rspValid = some true ∧
    (s.script = [] → step s = .next t)

/-! ### Invariants and rules of the whole machine -/

/-- 44_convert.md R168 with 10_state.md R22, R23, as an invariant that every step keeps: from every state that
meets it, reachable or not. -/
def Obligations.StepKeepsTheProtocolInvariant : Prop :=
  ∀ s t : State, s.Inv → step s = .next t → t.Inv

/-- The invariant holds after reset and before the first RESET. -/
def Obligations.InvariantAtResetAndPowerOn : Prop :=
  State.reset.Inv ∧ State.powerOn.Inv

/-- 60_exceptions.md R197: there is no fault that halts the block. -/
def Obligations.NoFaultUnderTheInvariant : Prop :=
  ∀ s : State, s.Inv → s.Safe

/-- Derived from 00_scope.md R16 and 44_convert.md R169: an operation or a word used alone, and READ, leave the
block's interface state and the schedule as they were. -/
def Obligations.OtherRowsLeaveTheInterface : Prop :=
  ∀ (i : Instr) (s t : State), writesInterface i = false → exec i s = .next t →
    t.text = s.text ∧ t.len = s.len ∧ t.busy = s.busy ∧ t.rspValid = s.rspValid ∧
    t.status = s.status ∧ t.p = s.p ∧ t.script = s.script

/-- Derived from 10_state.md R32, R34, 42_normalize.md R130, 43_pack.md R150: the ports are no storage. What they
carry after a row is a function of the row and its operands alone, the steps of the transaction protocol and the
rows of a format leave nothing on them, and neither does a step with nothing scheduled (log entry 8). -/
def Obligations.PortsKeepNothingFromEarlierSteps : Prop :=
  (∀ (i : Instr) (s s' t t' : State), exec i s = .next t → exec i s' = .next t' → t.ports = t'.ports) ∧
  (∀ (i : Instr) (s t : State), drivesPorts i = false → exec i s = .next t → t.ports = {}) ∧
  (∀ s t : State, s.script = [] → step s = .next t → t.ports = {})

/-- Derived from 10_state.md R23, R26: `STATUS` and `P` get a value from COMPLETE and from nothing else. -/
def Obligations.OnlyCompleteWritesTheResponse : Prop :=
  ∀ (i : Instr) (s t : State), i ≠ .complete → exec i s = .next t →
    (t.status = s.status ∨ t.status = none) ∧ (t.p = s.p ∨ t.p = none) ∧
    (t.rspValid = some true → s.rspValid = some true)

/-- Derived from 70_reset_and_hazards.md R214: while a transaction is in flight nothing but RESET changes the
text. -/
def Obligations.TextIsStableWhileBusy : Prop :=
  ∀ (i : Instr) (s t : State), s.busy = some true → i ≠ .reset → exec i s = .next t →
    t.text = s.text ∧ t.len = s.len

/-- Derived from 20_memory.md R51 and 00_scope.md R14: a cell reads what was written to it, every other cell as
before, and the canonical form is kept. -/
def Obligations.TextCellWriteThenRead : Prop :=
  ∀ (m : List Host.Cell) (i : Nat) (c : Byte), Memory.wf m = true →
    Memory.wf (Memory.write m i c) = true ∧ Memory.read (Memory.write m i c) i = some c ∧
    ∀ j, j ≠ i → Memory.read (Memory.write m i c) j = Memory.read m j

/-! ### Status codes and result words -/

/-- 30_encoding.md R85: the three codes, and no word under an error kind; the reserved code is refused. That the
host's side takes the code is the model's reading (log entry 11). -/
def Obligations.StatusCodesAsTheHostReadsThem : Prop :=
  ∀ s : State,
    exec .statusOk s = .next { s with ports := {}, host := { status := some .ok, word := s.host.word } } ∧
    exec .statusParseError s =
      .next { s with ports := {}, host := { status := some .parseError, word := none } } ∧
    exec .statusRangeError s =
      .next { s with ports := {}, host := { status := some .rangeError, word := none } } ∧
    exec .statusReserved s = .refused .statusReserved ∧
    decode ⟨.status2, [0b00#8]⟩ = .ok .statusOk ∧ decode ⟨.status2, [0b01#8]⟩ = .ok .statusParseError ∧
    decode ⟨.status2, [0b10#8]⟩ = .ok .statusRangeError ∧
    decode ⟨.status2, [0b11#8]⟩ = .ok .statusReserved

/-- 30_encoding.md R80, R83: the layout of the result word, by positions and as a number. That the host's side
takes the word is the model's reading (log entry 11). -/
def Obligations.ResultWordLayout : Prop :=
  ∀ (sign : Bool) (e : BitVec 8) (m : BitVec 23) (s : State), ∃ w : BitVec 32,
    exec (.f32 sign e m) s = .next { s with ports := {}, host := { s.host with word := some w } } ∧
    position w 0 = sign ∧ (∀ j, j < 8 → position w (1 + j) = e.getMsbD j) ∧
    (∀ j, j < 23 → position w (9 + j) = m.getMsbD j) ∧
    (∀ i, i < 32 → position w i = w.getLsbD (31 - i)) ∧
    w.toNat = sign.toNat * 2 ^ 31 + e.toNat * 2 ^ 23 + m.toNat
end

