-- ==== Sys2Proof/Laws/Bits.lean ====
section
/-! SUPPORT. Bit sequences and their vectors: what `val2`, `seq`, `vec` and `bitsOfNat` give. -/

namespace Sys2Proof.Machine

theorem val2_foldl (s : Bits) (n : Nat) :
    s.foldl (fun n b => 2 * n + b.toNat) n = n * 2 ^ s.length + val2 s := by
  induction s generalizing n with
  | nil => simp [val2]
  | cons b s ih =>
    simp only [val2, List.foldl_cons, List.length_cons] at *
    rw [ih, ih (2 * 0 + b.toNat)]
    ring

@[simp] theorem val2_nil : val2 [] = 0 := rfl

@[simp] theorem val2_cons (b : Bool) (s : Bits) : val2 (b :: s) = b.toNat * 2 ^ s.length + val2 s := by
  simpa [val2] using val2_foldl s (2 * 0 + b.toNat)

theorem val2_append (s t : Bits) : val2 (s ++ t) = val2 s * 2 ^ t.length + val2 t := by
  simp only [val2, List.foldl_append]
  exact val2_foldl t _

theorem val2_lt (s : Bits) : val2 s < 2 ^ s.length := by
  induction s with
  | nil => simp
  | cons b s ih =>
    simp only [val2_cons, List.length_cons, Nat.pow_succ]
    cases b <;> simp <;> omega

@[simp] theorem val2_rep_false (n : Nat) : val2 (rep false n) = 0 := by
  induction n with
  | zero => rfl
  | succ n ih => simpa [rep, List.replicate_succ] using ih

@[simp] theorem length_rep (b : Bool) (n : Nat) : (rep b n).length = n := by simp [rep]

@[simp] theorem length_seq {n : Nat} (v : BitVec n) : (seq v).length = n := by simp [seq]

@[simp] theorem length_bitsOfNat (n x : Nat) : (bitsOfNat n x).length = n := by simp [bitsOfNat]

theorem getElem?_seq {n : Nat} (v : BitVec n) (i : Nat) (h : i < n) : (seq v)[i]? = some (v.getMsbD i) := by
  simp [seq, h]

/-- Two sequences of one length that spell the same number are the same. -/
theorem val2_inj {s t : Bits} (hl : s.length = t.length) (hv : val2 s = val2 t) : s = t := by
  induction s generalizing t with
  | nil => exact (List.length_eq_zero_iff.mp hl.symm).symm
  | cons b s ih =>
    obtain _ | ⟨c, t⟩ := t
    · simp at hl
    · have hl' : s.length = t.length := by simpa using hl
      have hs := val2_lt s
      have ht := val2_lt t
      simp only [val2_cons, hl'] at hv hs
      cases b <;> cases c <;> simp at hv
      · rw [ih hl' hv]
      · omega
      · omega
      · rw [ih hl' hv]


/-- The bit at index `i` is the bit of weight `2^(len-1-i)` of the number. -/
theorem getElem?_eq_testBit (s : Bits) (i : Nat) (h : i < s.length) :
    s[i]? = some ((val2 s).testBit (s.length - 1 - i)) := by
  induction s generalizing i with
  | nil => simp at h
  | cons b s ih =>
    have hs := val2_lt s
    rw [val2_cons, Nat.mul_comm]
    cases i with
    | zero =>
      simp only [List.length_cons, Nat.add_sub_cancel, Nat.sub_zero, List.getElem?_cons_zero]
      rw [Nat.testBit_two_pow_mul_add _ hs]
      cases b <;> simp
    | succ i =>
      have hi : i < s.length := by simpa using h
      have e : (b :: s).length - 1 - (i + 1) = s.length - 1 - i := by simp; omega
      rw [List.getElem?_cons_succ, ih i hi, e, Nat.testBit_two_pow_mul_add _ hs, if_pos (by omega)]

theorem toNat_vec (n : Nat) (s : Bits) (h : s.length = n) : (vec n s).toNat = val2 s := by
  subst h
  simp [vec, Nat.mod_eq_of_lt (val2_lt s)]

theorem getMsbD_vec (n : Nat) (s : Bits) (h : s.length = n) (i : Nat) (hi : i < n) :
    some ((vec n s).getMsbD i) = s[i]? := by
  subst h
  rw [getElem?_eq_testBit s i hi, BitVec.getMsbD, BitVec.getLsbD, toNat_vec _ _ rfl]
  simp [hi]

/-- `val2(seq(v))` is the unsigned value of `v` (00_scope.md R13). -/
@[simp] theorem val2_seq {n : Nat} (v : BitVec n) : val2 (seq v) = v.toNat := by
  have key : vec n (seq v) = v := by
    refine BitVec.eq_of_getMsbD_eq fun i hi => ?_
    have := getMsbD_vec n (seq v) (length_seq v) i hi
    rw [getElem?_seq v i hi] at this
    exact Option.some.inj this
  rw [← toNat_vec n (seq v) (length_seq v), key]

@[simp] theorem vec_seq {n : Nat} (v : BitVec n) : vec n (seq v) = v := by
  apply BitVec.eq_of_toNat_eq
  rw [toNat_vec n _ (length_seq v), val2_seq]

theorem seq_vec (n : Nat) (s : Bits) (h : s.length = n) : seq (vec n s) = s :=
  val2_inj (by simp [h]) (by rw [val2_seq, toNat_vec n s h])

/-- The `n`-bit sequence of a number spells it, modulo `2^n`. -/
theorem val2_bitsOfNat (n x : Nat) : val2 (bitsOfNat n x) = x % 2 ^ n := by
  have h : bitsOfNat n x = seq (BitVec.ofNat n x) := by
    simp only [bitsOfNat, seq]
    refine List.map_congr_left fun j hj => ?_
    have hj : j < n := List.mem_range.mp hj
    have : n - 1 - j < n := by omega
    rw [BitVec.getMsbD, BitVec.getLsbD, BitVec.toNat_ofNat, Nat.testBit_mod_two_pow,
      Nat.testBit_eq_decide_div_mod_eq]
    simp only [hj, this, decide_true, Bool.true_and]
    rfl
  rw [h, val2_seq, BitVec.toNat_ofNat]

theorem true_mem_seq {n : Nat} (v : BitVec n) : true ∈ seq v ↔ v ≠ 0#n := by
  constructor
  · rintro h rfl
    simp [seq] at h
  · intro h
    by_contra hn
    apply h
    refine BitVec.eq_of_getMsbD_eq fun i hi => ?_
    have : v.getMsbD i ∈ seq v := by
      simp only [seq, List.mem_map, List.mem_range]
      exact ⟨i, hi, rfl⟩
    cases hv : v.getMsbD i
    · simp
    · rw [hv] at this; exact absurd this hn

end Sys2Proof.Machine
end

