-- ==== Sys2Proof/Laws/BinConv.lean ====
section
/-! SUPPORT. What INT2BIN and FRAC2BIN give: the number the digits spell, their count, the closed form of the
window. -/

namespace Sys2Proof.Machine

theorem int2binLoop_eq (fuel n : Nat) (w : Bits) :
    int2binLoop fuel n w = int2binLoop fuel n [] ++ w := by
  induction fuel generalizing n w with
  | zero => rfl
  | succ fuel ih =>
    simp only [int2binLoop]
    split
    · rfl
    · rw [ih, ih (n / 2) [_]]
      simp

/-- The loop gives the digits of `n` without a leading zero. -/
theorem int2binLoop_spec (fuel n : Nat) (hf : n ≤ fuel) (h0 : n ≠ 0) :
    val2 (int2binLoop fuel n []) = n ∧ (int2binLoop fuel n []).length = n.log2 + 1 ∧
      (int2binLoop fuel n []).head? = some true := by
  induction fuel generalizing n with
  | zero => omega
  | succ fuel ih =>
    rw [int2binLoop, if_neg h0, int2binLoop_eq]
    by_cases h1 : n / 2 = 0
    · obtain rfl : n = 1 := by omega
      have : Nat.log2 1 = 0 := by decide
      cases fuel <;> simp [int2binLoop, this]
    · obtain ⟨hv, hl, hh⟩ := ih (n / 2) (by omega) h1
      have hlog : n.log2 = (n / 2).log2 + 1 := by
        rw [Nat.log2_def, if_pos (by omega)]
      refine ⟨?_, ?_, ?_⟩
      · rw [val2_append, hv]
        rcases Nat.mod_two_eq_zero_or_one n with h | h <;> simp [h] <;> omega
      · rw [List.length_append, hl, hlog]; rfl
      · simp [List.head?_append, hh]

/-- INT2BIN for a number above zero (41_binconv.md R120, R121). -/
theorem int2bin_spec (n : Nat) (h : n ≠ 0) :
    val2 (int2bin n) = n ∧ (int2bin n).length = n.log2 + 1 ∧ (int2bin n).head? = some true := by
  rw [int2bin, if_neg h]
  exact int2binLoop_spec n n (Nat.le_refl n) h

theorem int2bin_zero : int2bin 0 = [false] := rfl

@[simp] theorem length_frac2binLoop (count d t : Nat) : (frac2binLoop count d t).length = count := by
  induction count generalizing t with
  | zero => rfl
  | succ count ih => simp only [frac2binLoop]; split <;> simp [ih]

/-- The loop in closed form (41_binconv.md R124). -/
theorem val2_frac2binLoop (count d t : Nat) (h : t < d) :
    val2 (frac2binLoop count d t) = t * 2 ^ count / d := by
  have hd : 0 < d := by omega
  induction count generalizing t with
  | zero => simp [frac2binLoop, Nat.div_eq_of_lt h]
  | succ count ih =>
    simp only [frac2binLoop]
    split
    · rw [val2_cons, length_frac2binLoop, ih _ (by omega), Bool.toNat_true, Nat.one_mul]
      have : t * 2 ^ (count + 1) = (2 * t - d) * 2 ^ count + d * 2 ^ count := by
        rw [← Nat.add_mul, Nat.sub_add_cancel ‹_›]
        ring
      rw [this, Nat.add_mul_div_left _ _ hd]
      omega
    · rw [val2_cons, length_frac2binLoop, ih _ (by omega)]
      have : t * 2 ^ (count + 1) = 2 * t * 2 ^ count := by ring
      rw [this, Bool.toNat_false]
      omega

@[simp] theorem length_frac2bin (f k : Nat) : (frac2bin f k).length = 23 := by
  simp [frac2bin]

/-- FRAC2BIN in closed form (41_binconv.md R124). -/
theorem val2_frac2bin (f k : Nat) (h : f < 10 ^ k) : val2 (frac2bin f k) = f * 2 ^ 23 / 10 ^ k :=
  val2_frac2binLoop 23 (10 ^ k) f h

end Sys2Proof.Machine
end

