-- ==== Sys2Proof/Laws/Bytes.lean ====
section
/-! SUPPORT. Bytes and the numbers they hold, operand fields, characters and digits. -/

namespace Sys2Proof

/-! ### Bytes -/

@[simp] theorem length_leBytes (n v : Nat) : (leBytes n v).length = n := by
  induction n generalizing v with
  | zero => rfl
  | succ n ih => simp [leBytes, ih]

theorem leNat_leBytes (n v : Nat) : leNat (leBytes n v) = v % 256 ^ n := by
  induction n generalizing v with
  | zero => simp [leBytes, leNat, Nat.mod_one]
  | succ n ih =>
    rw [leBytes, leNat, ih, BitVec.toNat_ofNat, pow_succ' 256 n, Nat.mod_mul]

theorem leNat_lt (bs : List Byte) : leNat bs < 256 ^ bs.length := by
  induction bs with
  | nil => simp [leNat]
  | cons b bs ih =>
    have := b.isLt
    simp only [leNat, List.length_cons, Nat.pow_succ]
    omega

theorem leBytes_leNat (bs : List Byte) : leBytes bs.length (leNat bs) = bs := by
  induction bs with
  | nil => rfl
  | cons b bs ih =>
    have hb := b.isLt
    have h1 : (b.toNat + 256 * leNat bs) / 256 = leNat bs := by omega
    simp only [List.length_cons, leBytes, leNat, h1, ih, List.cons.injEq, and_true]
    apply BitVec.eq_of_toNat_eq
    simp only [BitVec.toNat_ofNat]
    omega

/-- A field holds exactly the values of its width. -/
theorem decodeField_eq {n w : Nat} {bs : List Byte} {v : BitVec w} (hw : w ≤ 8 * n) :
    decodeField n w bs = .ok v ↔ bs = leBytes n v.toNat := by
  have h256 : (256 : Nat) ^ n = 2 ^ (8 * n) := by rw [Nat.pow_mul]
  unfold decodeField
  constructor
  · intro h
    split at h
    · next hl =>
      split at h
      · next hv =>
        obtain rfl : BitVec.ofNat w (leNat bs) = v := by simpa using h
        rw [BitVec.toNat_ofNat, Nat.mod_eq_of_lt hv, ← hl, leBytes_leNat]
      · simp at h
    · simp at h
  · rintro rfl
    have hlt : v.toNat < 256 ^ n := by
      rw [h256]
      exact Nat.lt_of_lt_of_le v.isLt (Nat.pow_le_pow_right (by omega) hw)
    rw [if_pos (length_leBytes _ _), leNat_leBytes, Nat.mod_eq_of_lt hlt, if_pos v.isLt]
    simp

theorem decodeFlag_eq {bs : List Byte} {b : Bool} : decodeFlag bs = .ok b ↔ bs = flagBytes b := by
  unfold decodeFlag flagBytes
  constructor
  · intro h
    split at h
    · simp at h
    · next v hv =>
      rw [decodeField_eq (by omega)] at hv
      obtain rfl : (v == 1#1) = b := by simpa using h
      rw [hv]
      have : ∀ v : BitVec 1, leBytes 1 v.toNat = leBytes 1 (v == 1#1).toNat := by decide
      exact this v
  · rintro rfl
    have : decodeField 1 1 (leBytes 1 b.toNat) = .ok (BitVec.ofBool b) := by
      rw [decodeField_eq (by omega)]
      cases b <;> rfl
    rw [this]
    cases b <;> rfl

theorem natBytesFuel_spec (fuel v : Nat) (h : v ≤ fuel) :
    leNat (natBytesFuel fuel v) = v ∧ (natBytesFuel fuel v).getLast? ≠ some 0#8 := by
  induction fuel generalizing v with
  | zero =>
    obtain rfl : v = 0 := by omega
    simp [natBytesFuel, leNat]
  | succ fuel ih =>
    by_cases hv : v = 0
    · simp [natBytesFuel, leNat, hv]
    · obtain ⟨h1, h2⟩ := ih (v / 256) (by omega)
      simp only [natBytesFuel, if_neg hv, leNat, h1, BitVec.toNat_ofNat]
      refine ⟨by omega, ?_⟩
      rw [List.getLast?_cons]
      cases hl : (natBytesFuel fuel (v / 256)).getLast? with
      | none =>
        have : natBytesFuel fuel (v / 256) = [] := by simpa using hl
        rw [this, leNat] at h1
        intro h0
        have := congrArg BitVec.toNat (Option.some.inj h0)
        simp at this
        omega
      | some x =>
        rw [hl] at h2
        simpa using h2

/-- Two canonical byte lists of one number are the same. -/
theorem leNat_inj {as bs : List Byte} (ha : as.getLast? ≠ some 0#8) (hb : bs.getLast? ≠ some 0#8)
    (h : leNat as = leNat bs) : as = bs := by
  have zero : ∀ cs : List Byte, cs.getLast? ≠ some 0#8 → leNat cs = 0 → cs = [] := by
    intro cs
    induction cs with
    | nil => simp
    | cons c cs ih =>
      intro hc h0
      simp only [leNat] at h0
      have hc0 : c.toNat = 0 := by omega
      rw [List.getLast?_cons] at hc
      cases hl : cs.getLast? with
      | none =>
        rw [hl] at hc
        exact absurd (congrArg some (BitVec.eq_of_toNat_eq hc0)) hc
      | some x =>
        rw [hl] at hc
        have := ih (by rw [hl]; simpa using hc) (by omega)
        simp [this] at hl
  induction as generalizing bs with
  | nil => exact (zero bs hb h.symm).symm
  | cons a as ih =>
    obtain _ | ⟨b, bs⟩ := bs
    · exact zero (a :: as) ha h
    · have h1 := a.isLt
      have h2 := b.isLt
      simp only [leNat] at h
      have hab : a = b := BitVec.eq_of_toNat_eq (by omega)
      have tail : ∀ (x : Byte) (xs : List Byte), (x :: xs).getLast? ≠ some 0#8 →
          xs.getLast? ≠ some 0#8 := by
        intro x xs hx hxs
        rw [List.getLast?_cons, hxs] at hx
        exact hx rfl
      rw [hab, ih (tail a as ha) (tail b bs hb) (by omega)]

theorem decodeNat_eq {bs : List Byte} {v : Nat} : decodeNat bs = .ok v ↔ bs = natBytes v := by
  obtain ⟨h1, h2⟩ := natBytesFuel_spec v v (Nat.le_refl v)
  unfold decodeNat natBytes
  constructor
  · intro h
    split at h
    · simp at h
    · next hl =>
      exact leNat_inj hl h2 (by rw [h1]; simpa using h)
  · rintro rfl
    rw [if_neg h2, h1]

/-! ### Characters and digits -/

/-- `is_digit` says what the table of 30_encoding.md R71 says. -/
theorem isDigit_iff (c : Byte) : isDigit c = true ↔ 0x30 ≤ c.toNat ∧ c.toNat ≤ 0x39 := by
  revert c
  decide

theorem dval_digit (c : Byte) (h : isDigit c = true) : (dval c).val = c.toNat - 0x30 := by
  obtain ⟨h1, h2⟩ := (isDigit_iff c).mp h
  simp only [dval, Fin.ofNat]
  omega

theorem isDigit_digitChar (d : Nat) (h : d < 10) :
    isDigit (digitChar d) = true ∧ (dval (digitChar d)).val = d := by
  have : ∀ d : Fin 10, isDigit (digitChar d.val) = true ∧ (dval (digitChar d.val)).val = d.val := by
    decide
  exact this ⟨d, h⟩

theorem digitChar_dval (c : Byte) (h : isDigit c = true) : digitChar (dval c).val = c := by
  obtain ⟨h1, h2⟩ := (isDigit_iff c).mp h
  apply BitVec.eq_of_toNat_eq
  rw [digitChar, dval_digit c h, BitVec.toNat_ofNat]
  omega

theorem val10_append (ds : List Digit) (d : Digit) : val10 (ds ++ [d]) = 10 * val10 ds + d.val := by
  simp [val10]

theorem val10_lt (ds : List Digit) : val10 ds < 10 ^ ds.length := by
  induction ds using List.reverseRecOn with
  | nil => simp [val10]
  | append_singleton ds d ih =>
    have := d.isLt
    rw [val10_append, List.length_append, List.length_singleton, Nat.pow_succ]
    omega

theorem digitChars_spec (k f : Nat) (h : f < 10 ^ k) :
    (digitChars k f).all isDigit = true ∧ (digitChars k f).length = k ∧
      val10 (digitsOf (digitChars k f)) = f := by
  induction k generalizing f with
  | zero =>
    obtain rfl : f = 0 := by simpa using h
    simp [digitChars, digitsOf, val10]
  | succ k ih =>
    obtain ⟨h1, h2, h3⟩ := ih (f / 10) (by rw [Nat.pow_succ] at h; omega)
    obtain ⟨d1, d2⟩ := isDigit_digitChar (f % 10) (by omega)
    refine ⟨by simp only [digitChars, List.all_append, h1, List.all_cons, d1, List.all_nil]; rfl,
      by simp [digitChars, h2], ?_⟩
    simp only [digitChars, digitsOf, List.map_append, List.map_cons, List.map_nil] at h3 ⊢
    rw [val10_append, h3, d2]
    omega

theorem digitChars_val10 (s : Text) (h : s.all isDigit = true) :
    digitChars s.length (val10 (digitsOf s)) = s := by
  induction s using List.reverseRecOn with
  | nil => rfl
  | append_singleton s c ih =>
    simp only [List.all_append, List.all_cons, List.all_nil, Bool.and_true, Bool.and_eq_true] at h
    have hc := (dval c).isLt
    rw [List.length_append, List.length_singleton, digitsOf, List.map_append, List.map_singleton,
      val10_append, digitChars]
    have e1 : (10 * val10 (List.map dval s) + (dval c).val) / 10 = val10 (digitsOf s) := by
      rw [digitsOf]; omega
    have e2 : (10 * val10 (List.map dval s) + (dval c).val) % 10 = (dval c).val := by omega
    rw [e1, e2, ih h.1, digitChar_dval c h.2]

/-- The five character rows partition the codes, and each row's word is its code. -/
theorem decodeChar_encode (c : Byte) : (encode (decodeChar c)) = ⟨.char8, [c]⟩ := by
  revert c
  decide

theorem decodeChar_wf (c : Byte) : (decodeChar c).wf = true := by
  revert c
  decide

theorem statusRow_encode (c : BitVec 2) : encode (statusRow c) = ⟨.status2, leBytes 1 c.toNat⟩ := by
  revert c
  decide

/-! ### Result words -/

/-- The result word as a number (30_encoding.md R83). -/
theorem toNat_f32Word (s : Bool) (e : BitVec 8) (m : BitVec 23) :
    (f32Word s e m).toNat = s.toNat * 2 ^ 31 + e.toNat * 2 ^ 23 + m.toNat := by
  have he := e.isLt
  have hm := m.isLt
  rw [f32Word, BitVec.toNat_append, BitVec.toNat_append, ← Nat.shiftLeft_add_eq_or_of_lt he,
    ← Nat.shiftLeft_add_eq_or_of_lt hm, BitVec.toNat_ofBool]
  simp only [Nat.shiftLeft_eq]
  omega

/-- The fields of a word made of three fields are those fields. -/
theorem f32Row_f32Word (s : Bool) (e : BitVec 8) (m : BitVec 23) : f32Row (f32Word s e m) = .f32 s e m := by
  have he := e.isLt
  have hm := m.isLt
  have h := toNat_f32Word s e m
  simp only [f32Row, Instr.f32.injEq]
  refine ⟨?_, BitVec.eq_of_toNat_eq ?_, BitVec.eq_of_toNat_eq ?_⟩
  · rw [BitVec.getLsbD, h, Nat.testBit_eq_decide_div_mod_eq]
    cases s <;> simp <;> omega
  · rw [BitVec.extractLsb'_toNat, h, Nat.shiftRight_eq_div_pow]
    cases s <;> simp <;> omega
  · rw [BitVec.extractLsb'_toNat, h, Nat.shiftRight_eq_div_pow]
    cases s <;> simp <;> omega

/-- A word is made of its three fields. -/
theorem f32Word_fields (w : BitVec 32) :
    f32Word (w.getLsbD 31) (w.extractLsb' 23 8) (w.extractLsb' 0 23) = w := by
  have hw := w.isLt
  apply BitVec.eq_of_toNat_eq
  rw [toNat_f32Word, BitVec.extractLsb'_toNat, BitVec.extractLsb'_toNat, BitVec.getLsbD,
    Nat.testBit_eq_decide_div_mod_eq, Nat.shiftRight_eq_div_pow, Nat.shiftRight_eq_div_pow]
  by_cases h : w.toNat / 2 ^ 31 % 2 = 1
  · rw [decide_eq_true h, Bool.toNat_true]; omega
  · rw [decide_eq_false h, Bool.toNat_false]; omega

end Sys2Proof
end

