-- ==== Sys2Proof/Laws/State.lean ====
section
/-! SUPPORT. Each field after each update of the state, so that no proof unfolds an update. -/

namespace Sys2Proof.Machine

variable (s : State)

/-! ### `State.drive` -/

@[simp] theorem State.drive_text (o : Ports) : (s.drive o).text = s.text := rfl
@[simp] theorem State.drive_len (o : Ports) : (s.drive o).len = s.len := rfl
@[simp] theorem State.drive_busy (o : Ports) : (s.drive o).busy = s.busy := rfl
@[simp] theorem State.drive_rspValid (o : Ports) : (s.drive o).rspValid = s.rspValid := rfl
@[simp] theorem State.drive_status (o : Ports) : (s.drive o).status = s.status := rfl
@[simp] theorem State.drive_p (o : Ports) : (s.drive o).p = s.p := rfl
@[simp] theorem State.drive_ports (o : Ports) : (s.drive o).ports = o := rfl
@[simp] theorem State.drive_scan (o : Ports) : (s.drive o).scan = s.scan := rfl
@[simp] theorem State.drive_host (o : Ports) : (s.drive o).host = s.host := rfl
@[simp] theorem State.drive_script (o : Ports) : (s.drive o).script = s.script := rfl

/-- Only the last step's outputs are on the ports (10_state.md R32). -/
@[simp] theorem State.drive_drive (o o' : Ports) : (s.drive o).drive o' = s.drive o' := rfl

/-! ### `State.handOver` -/

@[simp] theorem State.handOver_text (t : Text) : (s.handOver t).text = Memory.writeRange s.text 0 t := rfl
@[simp] theorem State.handOver_len (t : Text) : (s.handOver t).len = some t.length := rfl
@[simp] theorem State.handOver_busy (t : Text) : (s.handOver t).busy = some true := rfl
@[simp] theorem State.handOver_rspValid (t : Text) : (s.handOver t).rspValid = some false := rfl
@[simp] theorem State.handOver_status (t : Text) : (s.handOver t).status = none := rfl
@[simp] theorem State.handOver_p (t : Text) : (s.handOver t).p = none := rfl
@[simp] theorem State.handOver_ports (t : Text) : (s.handOver t).ports = {} := rfl
@[simp] theorem State.handOver_scan (t : Text) : (s.handOver t).scan = .reading {} := rfl
@[simp] theorem State.handOver_host (t : Text) : (s.handOver t).host = s.host := rfl
@[simp] theorem State.handOver_script (t : Text) : (s.handOver t).script = s.script := rfl

/-! ### `State.publish` -/

@[simp] theorem State.publish_text (r : Response) : (s.publish r).text = s.text := rfl
@[simp] theorem State.publish_len (r : Response) : (s.publish r).len = s.len := rfl
@[simp] theorem State.publish_busy (r : Response) : (s.publish r).busy = some false := rfl
@[simp] theorem State.publish_rspValid (r : Response) : (s.publish r).rspValid = some true := rfl
@[simp] theorem State.publish_status (r : Response) : (s.publish r).status = some r.status := rfl
@[simp] theorem State.publish_p (r : Response) : (s.publish r).p = r.bits := rfl
@[simp] theorem State.publish_ports (r : Response) : (s.publish r).ports = {} := rfl
@[simp] theorem State.publish_scan (r : Response) : (s.publish r).scan = s.scan := rfl
@[simp] theorem State.publish_host (r : Response) : (s.publish r).host = s.host := rfl
@[simp] theorem State.publish_script (r : Response) : (s.publish r).script = s.script := rfl

/-! ### `State.clear` -/

@[simp] theorem State.clear_text : (s.clear).text = State.reset.text := rfl
@[simp] theorem State.clear_len : (s.clear).len = State.reset.len := rfl
@[simp] theorem State.clear_busy : (s.clear).busy = State.reset.busy := rfl
@[simp] theorem State.clear_rspValid : (s.clear).rspValid = State.reset.rspValid := rfl
@[simp] theorem State.clear_status : (s.clear).status = State.reset.status := rfl
@[simp] theorem State.clear_p : (s.clear).p = State.reset.p := rfl
@[simp] theorem State.clear_ports : (s.clear).ports = {} := rfl
@[simp] theorem State.clear_scan : (s.clear).scan = State.reset.scan := rfl
@[simp] theorem State.clear_host : (s.clear).host = s.host := rfl
@[simp] theorem State.clear_script : (s.clear).script = s.script := rfl

/-! ### `State.deliver` -/

@[simp] theorem State.deliver_text (r : Response) : (s.deliver r).text = s.text := rfl
@[simp] theorem State.deliver_len (r : Response) : (s.deliver r).len = s.len := rfl
@[simp] theorem State.deliver_busy (r : Response) : (s.deliver r).busy = s.busy := rfl
@[simp] theorem State.deliver_rspValid (r : Response) : (s.deliver r).rspValid = s.rspValid := rfl
@[simp] theorem State.deliver_status (r : Response) : (s.deliver r).status = s.status := rfl
@[simp] theorem State.deliver_p (r : Response) : (s.deliver r).p = s.p := rfl
@[simp] theorem State.deliver_ports (r : Response) : (s.deliver r).ports = {} := rfl
@[simp] theorem State.deliver_scan (r : Response) : (s.deliver r).scan = s.scan := rfl
@[simp] theorem State.deliver_host (r : Response) : (s.deliver r).host = ⟨some r.status, r.bits⟩ := rfl
@[simp] theorem State.deliver_script (r : Response) : (s.deliver r).script = s.script := rfl

/-! ### `State.scanChar` -/

@[simp] theorem State.scanChar_text (c : CharClass) : (s.scanChar c).text = s.text := rfl
@[simp] theorem State.scanChar_len (c : CharClass) : (s.scanChar c).len = s.len := rfl
@[simp] theorem State.scanChar_busy (c : CharClass) : (s.scanChar c).busy = s.busy := rfl
@[simp] theorem State.scanChar_rspValid (c : CharClass) : (s.scanChar c).rspValid = s.rspValid := rfl
@[simp] theorem State.scanChar_status (c : CharClass) : (s.scanChar c).status = s.status := rfl
@[simp] theorem State.scanChar_p (c : CharClass) : (s.scanChar c).p = s.p := rfl
@[simp] theorem State.scanChar_ports (c : CharClass) : (s.scanChar c).ports = {} := rfl
@[simp] theorem State.scanChar_scan (c : CharClass) : (s.scanChar c).scan = s.scan.char c := rfl
@[simp] theorem State.scanChar_host (c : CharClass) : (s.scanChar c).host = s.host := rfl
@[simp] theorem State.scanChar_script (c : CharClass) : (s.scanChar c).script = s.script := rfl

/-! ### `State.hostStatus` -/

@[simp] theorem State.hostStatus_text (st : Status) : (s.hostStatus st).text = s.text := rfl
@[simp] theorem State.hostStatus_len (st : Status) : (s.hostStatus st).len = s.len := rfl
@[simp] theorem State.hostStatus_busy (st : Status) : (s.hostStatus st).busy = s.busy := rfl
@[simp] theorem State.hostStatus_rspValid (st : Status) : (s.hostStatus st).rspValid = s.rspValid := rfl
@[simp] theorem State.hostStatus_status (st : Status) : (s.hostStatus st).status = s.status := rfl
@[simp] theorem State.hostStatus_p (st : Status) : (s.hostStatus st).p = s.p := rfl
@[simp] theorem State.hostStatus_ports (st : Status) : (s.hostStatus st).ports = {} := rfl
@[simp] theorem State.hostStatus_scan (st : Status) : (s.hostStatus st).scan = s.scan := rfl
@[simp] theorem State.hostStatus_host (st : Status) : (s.hostStatus st).host = ⟨some st, if st = .ok then s.host.word else none⟩ := rfl
@[simp] theorem State.hostStatus_script (st : Status) : (s.hostStatus st).script = s.script := rfl

/-! ### `State.pop` -/

@[simp] theorem State.pop_text : (s.pop).text = s.text := rfl
@[simp] theorem State.pop_len : (s.pop).len = s.len := rfl
@[simp] theorem State.pop_busy : (s.pop).busy = s.busy := rfl
@[simp] theorem State.pop_rspValid : (s.pop).rspValid = s.rspValid := rfl
@[simp] theorem State.pop_status : (s.pop).status = s.status := rfl
@[simp] theorem State.pop_p : (s.pop).p = s.p := rfl
@[simp] theorem State.pop_ports : (s.pop).ports = s.ports := rfl
@[simp] theorem State.pop_scan : (s.pop).scan = s.scan := rfl
@[simp] theorem State.pop_host : (s.pop).host = s.host := rfl
@[simp] theorem State.pop_script : (s.pop).script = s.script.tail := rfl

/-! ### `State.push` -/

@[simp] theorem State.push_text (c : Command) : (s.push c).text = s.text := rfl
@[simp] theorem State.push_len (c : Command) : (s.push c).len = s.len := rfl
@[simp] theorem State.push_busy (c : Command) : (s.push c).busy = s.busy := rfl
@[simp] theorem State.push_rspValid (c : Command) : (s.push c).rspValid = s.rspValid := rfl
@[simp] theorem State.push_status (c : Command) : (s.push c).status = s.status := rfl
@[simp] theorem State.push_p (c : Command) : (s.push c).p = s.p := rfl
@[simp] theorem State.push_ports (c : Command) : (s.push c).ports = s.ports := rfl
@[simp] theorem State.push_scan (c : Command) : (s.push c).scan = s.scan := rfl
@[simp] theorem State.push_host (c : Command) : (s.push c).host = s.host := rfl
@[simp] theorem State.push_script (c : Command) : (s.push c).script = c :: s.script := rfl

/-- A command put at the front of the schedule is the one taken off. -/
@[simp] theorem State.pop_push (c : Command) : (s.push c).pop = s := rfl

end Sys2Proof.Machine
end

