-- ==== Sys2Proof/Laws/Exec.lean ====
section
/-! SUPPORT. Said once: everything a row and a step can do. -/

namespace Sys2Proof.Machine

/-- Everything a row that answers a next state has done: it drove its own output ports, or it wrote the context
of the character decoder or the host's side and drove none, or it is one of the three steps that write the
interface. -/
theorem exec_cases {i : Instr} {s t : State} (h : exec i s = .next t) :
    (writesInterface i = false ∧
      ((drivesPorts i = true ∧ ∃ o, t = s.drive o) ∨
       (drivesPorts i = false ∧
         ((∃ x, t = { s with ports := {}, scan := x }) ∨ (∃ x, t = { s with ports := {}, host := x }))))) ∨
    (∃ x, i = .start x ∧ s.busy = some false ∧ x.length ≤ Config.textMax ∧ t = s.handOver x) ∨
    (∃ x, i = .complete ∧ s.busy = some true ∧ s.request = some x ∧ t = s.publish (convert x)) ∨
    (i = .reset ∧ t = s.clear) := by
  cases i
  case parse x =>
    simp only [exec, execParse] at h
    split at h <;> cases h <;> exact .inl ⟨rfl, .inl ⟨rfl, _, rfl⟩⟩
  case parseSign x => cases h; exact .inl ⟨rfl, .inl ⟨rfl, _, rfl⟩⟩
  case parseSplit x => cases h; exact .inl ⟨rfl, .inl ⟨rfl, _, rfl⟩⟩
  case parseInt x =>
    simp only [exec, execParseInt] at h
    split at h <;> cases h <;> exact .inl ⟨rfl, .inl ⟨rfl, _, rfl⟩⟩
  case parseFrac x =>
    simp only [exec, execParseFrac] at h
    split at h <;> cases h <;> exact .inl ⟨rfl, .inl ⟨rfl, _, rfl⟩⟩
  case parseNeg m n f => cases h; exact .inl ⟨rfl, .inl ⟨rfl, _, rfl⟩⟩
  case frac2bin f k =>
    simp only [exec, execFrac2bin] at h
    split at h <;> cases h
    exact .inl ⟨rfl, .inl ⟨rfl, _, rfl⟩⟩
  case int2bin n => cases h; exact .inl ⟨rfl, .inl ⟨rfl, _, rfl⟩⟩
  case normalize n fb =>
    simp only [exec, execNormalize] at h
    split at h <;> cases h <;> exact .inl ⟨rfl, .inl ⟨rfl, _, rfl⟩⟩
  case normFrac fb =>
    simp only [exec, execNormFrac] at h
    split at h <;> cases h
    exact .inl ⟨rfl, .inl ⟨rfl, _, rfl⟩⟩
  case normZero => cases h; exact .inl ⟨rfl, .inl ⟨rfl, _, rfl⟩⟩
  case normOne fb => cases h; exact .inl ⟨rfl, .inl ⟨rfl, _, rfl⟩⟩
  case normInt n fb =>
    simp only [exec, execNormInt] at h
    split at h <;> cases h
    exact .inl ⟨rfl, .inl ⟨rfl, _, rfl⟩⟩
  case normRange b =>
    simp only [exec, execNormRange] at h
    split at h <;> cases h <;> exact .inl ⟨rfl, .inl ⟨rfl, _, rfl⟩⟩
  case pack sg m l b =>
    simp only [exec, execPack] at h
    split at h <;> cases h <;> exact .inl ⟨rfl, .inl ⟨rfl, _, rfl⟩⟩
  case convert x =>
    simp only [exec, execConvert] at h
    split at h <;> cases h
    exact .inl ⟨rfl, .inl ⟨rfl, _, rfl⟩⟩
  case start x =>
    simp only [exec, execStart] at h
    split at h
    · cases h
    · cases h
    · next hb =>
      split at h <;> cases h
      exact .inr (.inl ⟨x, rfl, hb, ‹_›, rfl⟩)
  case complete =>
    simp only [exec, execComplete] at h
    split at h
    · cases h
    · cases h
    · next hb =>
      split at h <;> cases h
      exact .inr (.inr (.inl ⟨_, rfl, hb, ‹_›, rfl⟩))
  case read =>
    simp only [exec, execRead] at h
    split at h
    · cases h
    · cases h
    · split at h <;> cases h
      exact .inl ⟨rfl, .inr ⟨rfl, .inr ⟨_, rfl⟩⟩⟩
  case reset => cases h; exact .inr (.inr (.inr ⟨rfl, rfl⟩))
  case charMinus => cases h; exact .inl ⟨rfl, .inr ⟨rfl, .inl ⟨_, rfl⟩⟩⟩
  case charDot => cases h; exact .inl ⟨rfl, .inr ⟨rfl, .inl ⟨_, rfl⟩⟩⟩
  case charDigit07 d => cases h; exact .inl ⟨rfl, .inr ⟨rfl, .inl ⟨_, rfl⟩⟩⟩
  case charDigit89 d => cases h; exact .inl ⟨rfl, .inr ⟨rfl, .inl ⟨_, rfl⟩⟩⟩
  case charIllegal c =>
    simp only [exec, execCharIllegal] at h
    split at h <;> cases h
    exact .inl ⟨rfl, .inr ⟨rfl, .inl ⟨_, rfl⟩⟩⟩
  case statusOk => cases h; exact .inl ⟨rfl, .inr ⟨rfl, .inr ⟨_, rfl⟩⟩⟩
  case statusParseError => cases h; exact .inl ⟨rfl, .inr ⟨rfl, .inr ⟨_, rfl⟩⟩⟩
  case statusRangeError => cases h; exact .inl ⟨rfl, .inr ⟨rfl, .inr ⟨_, rfl⟩⟩⟩
  case statusReserved => cases h
  case f32 sg e m => cases h; exact .inl ⟨rfl, .inr ⟨rfl, .inr ⟨_, rfl⟩⟩⟩

/-- The only row that can stop with a fault is COMPLETE, when the text of the transaction is not there. -/
theorem exec_fault {i : Instr} {s : State} {r : Fault} (h : exec i s = .fault r) :
    i = .complete ∧ s.busy = some true ∧ s.request = none := by
  cases i
  case complete =>
    simp only [exec, execComplete] at h
    split at h
    · cases h
    · cases h
    · next hb =>
      split at h
      · exact ⟨rfl, hb, ‹_›⟩
      · cases h
  all_goals
    first
      | cases h
      | (simp only [exec, execParse, execParseInt, execParseFrac, execFrac2bin, execNormalize, execNormFrac,
          execNormInt, execNormRange, execPack, execConvert, execStart, execRead, execCharIllegal] at h
         repeat' split at h
         all_goals cases h)

/-- Everything a step that answers a next state has done. -/
theorem step_cases {s t : State} (h : step s = .next t) :
    (∃ c rest i, s.script = c :: rest ∧ decode c = .ok i ∧ exec i s.pop = .next t) ∨
    (s.script = [] ∧ s.busy = some true ∧ exec .complete s = .next t) ∨
    (s.script = [] ∧ s.busy ≠ some true ∧ t = s.drive {}) := by
  unfold step at h
  split at h
  · next hs =>
    unfold idleStep at h
    split at h
    · exact .inr (.inl ⟨hs, ‹_›, h⟩)
    · cases h
      exact .inr (.inr ⟨hs, ‹_›, rfl⟩)
  · next c rest hs =>
    split at h
    · cases h
    · next i hi => exact .inl ⟨c, rest, i, hs, hi, h⟩

end Sys2Proof.Machine
end

