-- ==== Sys2Proof/Laws/Memory.lean ====
section
/-! SUPPORT. The text buffer: every operation keeps the canonical form; what a read gives after a write, of one
cell and of a range. -/

namespace Sys2Proof.Machine

@[simp] theorem Memory.read_nil (i : Nat) : Memory.read [] i = none := rfl

theorem Memory.read_write_self (m : Memory) (i : Nat) (c : Byte) : (m.write i c).read i = some c := by
  induction m with
  | nil => simp [Memory.write, Memory.read]
  | cons a m ih =>
    obtain ⟨j, d⟩ := a
    simp only [Memory.write]
    split
    · simp [Memory.read]
    · split
      · simp [Memory.read]
      · simp only [Memory.read, if_neg ‹¬i = j›, ih]

theorem Memory.read_write_other (m : Memory) {i j : Nat} (c : Byte) (h : j ≠ i) :
    (m.write i c).read j = m.read j := by
  induction m with
  | nil => simp [Memory.write, Memory.read, h]
  | cons a m ih =>
    obtain ⟨k, d⟩ := a
    simp only [Memory.write]
    split
    · simp [Memory.read, h]
    · split
      · next hk => subst hk; simp [Memory.read, h]
      · simp only [Memory.read, ih]

theorem Memory.wf_cons {a : Host.Cell} {m : Memory} :
    Memory.wf (a :: m) = true ↔ (∀ b ∈ m.head?, a.1 < b.1) ∧ Memory.wf m = true := by
  cases m <;> simp [Memory.wf]

theorem Memory.head?_write (m : Memory) (i : Nat) (c : Byte) (a : Nat) (hi : a < i)
    (hm : ∀ b ∈ m.head?, a < b.1) : ∀ b ∈ (m.write i c).head?, a < b.1 := by
  cases m with
  | nil => simp [Memory.write, hi]
  | cons x m =>
    obtain ⟨j, d⟩ := x
    simp only [Memory.write]
    split
    · simpa using hi
    · split
      · simpa using hi
      · simpa using hm

/-- A write keeps the canonical form. -/
theorem Memory.wf_write (m : Memory) (i : Nat) (c : Byte) (h : Memory.wf m = true) :
    Memory.wf (m.write i c) = true := by
  induction m with
  | nil => rfl
  | cons x m ih =>
    obtain ⟨j, d⟩ := x
    obtain ⟨hh, hw⟩ := Memory.wf_cons.mp h
    simp only [Memory.write]
    split
    · exact Memory.wf_cons.mpr ⟨by simpa using ‹_›, h⟩
    · split
      · next hij => subst hij; exact Memory.wf_cons.mpr ⟨hh, hw⟩
      · exact Memory.wf_cons.mpr ⟨Memory.head?_write m i c j (by omega) hh, ih hw⟩

theorem Memory.mem_write {m : Memory} {i : Nat} {c : Byte} {a : Host.Cell} (h : a ∈ m.write i c) :
    a = (i, c) ∨ a ∈ m := by
  induction m with
  | nil => simpa [Memory.write] using h
  | cons x m ih =>
    obtain ⟨j, d⟩ := x
    simp only [Memory.write] at h
    split at h
    · simpa using h
    · split at h
      · rcases List.mem_cons.mp h with h | h
        · exact .inl h
        · exact .inr (List.mem_cons_of_mem _ h)
      · rcases List.mem_cons.mp h with h | h
        · exact .inr (by simp [h])
        · rcases ih h with h | h
          · exact .inl h
          · exact .inr (List.mem_cons_of_mem _ h)

/-- Writing a range keeps the canonical form. -/
theorem Memory.wf_writeRange (m : Memory) (i : Nat) (t : Text) (h : Memory.wf m = true) :
    Memory.wf (Memory.writeRange m i t) = true := by
  induction t generalizing m i with
  | nil => exact h
  | cons c t ih => exact ih _ _ (Memory.wf_write m i c h)

theorem Memory.mem_writeRange {m : Memory} {i : Nat} {t : Text} {a : Host.Cell}
    (h : a ∈ Memory.writeRange m i t) : (i ≤ a.1 ∧ a.1 < i + t.length) ∨ a ∈ m := by
  induction t generalizing m i with
  | nil => exact .inr h
  | cons c t ih =>
    rcases ih h with h | h
    · exact .inl (by simp only [List.length_cons]; omega)
    · rcases Memory.mem_write h with h | h
      · exact .inl (by simp [h])
      · exact .inr h

/-- A cell outside the range reads as before. -/
theorem Memory.read_writeRange_other (m : Memory) (i : Nat) (t : Text) (j : Nat)
    (h : j < i ∨ i + t.length ≤ j) : (Memory.writeRange m i t).read j = m.read j := by
  induction t generalizing m i with
  | nil => rfl
  | cons c t ih =>
    simp only [List.length_cons] at h
    simp only [Memory.writeRange]
    rw [ih _ _ (by omega), Memory.read_write_other _ _ (by omega)]

/-- A cell of the range reads what was written. -/
theorem Memory.read_writeRange (m : Memory) (i : Nat) (t : Text) (j : Nat) (h : j < t.length) :
    (Memory.writeRange m i t).read (i + j) = t[j]? := by
  induction t generalizing m i j with
  | nil => simp at h
  | cons c t ih =>
    simp only [Memory.writeRange]
    cases j with
    | zero =>
      rw [Memory.read_writeRange_other _ _ _ _ (by omega)]
      simpa using Memory.read_write_self m i c
    | succ j =>
      have := ih (m.write i c) (i + 1) j (by simpa using h)
      rw [show i + (j + 1) = i + 1 + j by omega, this]
      simp

/-- A range reads as the text whose characters its cells hold. -/
theorem Memory.readRange_eq {m : Memory} {i n : Nat} {t : Text} :
    m.readRange i n = some t ↔ t.length = n ∧ ∀ j, j < n → m.read (i + j) = t[j]? := by
  induction n generalizing i t with
  | zero => cases t <;> simp [Memory.readRange]
  | succ n ih =>
    simp only [Memory.readRange]
    constructor
    · intro h
      split at h
      · next c u hc hu =>
        obtain rfl := Option.some.inj h
        obtain ⟨hl, hr⟩ := ih.mp hu
        refine ⟨by simp [hl], fun j hj => ?_⟩
        cases j with
        | zero => simpa using hc
        | succ j =>
          rw [show i + (j + 1) = i + 1 + j by omega, hr j (by omega)]
          simp
      · simp at h
    · rintro ⟨hl, hr⟩
      obtain _ | ⟨c, u⟩ := t
      · simp at hl
      · have h0 : m.read i = some c := by simpa using hr 0 (by omega)
        have hu : m.readRange (i + 1) n = some u := ih.mpr ⟨by simpa using hl, fun j hj => by
          have := hr (j + 1) (by omega)
          rw [show i + (j + 1) = i + 1 + j by omega] at this
          simpa using this⟩
        rw [h0, hu]

/-- What was written as a range is read back. -/
theorem Memory.readRange_writeRange (m : Memory) (i : Nat) (t : Text) :
    (Memory.writeRange m i t).readRange i t.length = some t :=
  Memory.readRange_eq.mpr ⟨rfl, fun _ h => Memory.read_writeRange m i t _ h⟩

/-- The text read at COMPLETE, said by cells (20_memory.md R51). -/
theorem State.request_eq {s : State} {t : Text} :
    s.request = some t ↔ s.len = some t.length ∧ ∀ i, i < t.length → Memory.read s.text i = t[i]? := by
  unfold State.request
  cases h : s.len with
  | none => simp
  | some n =>
    simp only [Memory.readRange_eq, Nat.zero_add, Option.some.injEq]
    constructor
    · rintro ⟨rfl, hr⟩; exact ⟨rfl, hr⟩
    · rintro ⟨rfl, hr⟩; exact ⟨rfl, hr⟩

end Sys2Proof.Machine
end

