-- ==== Sys2Proof/Laws/Normalize.lean ====
section
/-! SUPPORT. What the cases of NORMALIZE give, as numbers. -/

namespace Sys2Proof.Machine

theorem log2_bounds (n : Nat) (h : n ≠ 0) : 2 ^ n.log2 ≤ n ∧ n < 2 ^ (n.log2 + 1) :=
  ⟨Nat.log2_self_le h, Nat.lt_log2_self⟩

theorem log2_unique (n k : Nat) (h1 : 2 ^ k ≤ n) (h2 : n < 2 ^ (k+1)) : n.log2 = k := by
  have h0 : n ≠ 0 := by have := Nat.two_pow_pos k; omega
  obtain ⟨a, b⟩ := log2_bounds n h0
  have := (Nat.pow_lt_pow_iff_right (a := 2) (by omega)).mp (Nat.lt_of_le_of_lt a h2)
  have := (Nat.pow_lt_pow_iff_right (a := 2) (by omega)).mp (Nat.lt_of_le_of_lt h1 b)
  omega

/-- The window as a vector (41_binconv.md R124). -/
theorem toNat_vec_frac2bin (f k : Nat) (h : f < 10 ^ k) :
    (vec 23 (frac2bin f k)).toNat = f * 2 ^ 23 / 10 ^ k := by
  rw [toNat_vec _ _ (length_frac2bin f k), val2_frac2bin f k h]

/-- The index of the first 1 of a window. -/
theorem idxOf_seq (fb : BitVec 23) (p : Nat) (hp : p < 23) (h1 : fb.getMsbD p = true)
    (h2 : ∀ i, i < p → fb.getMsbD i = false) : (seq fb).idxOf true = p := by
  apply Nat.le_antisymm
  · by_contra hn
    have hlt : p < (seq fb).idxOf true := by omega
    have := List.not_of_lt_findIdx (p := (· == true)) (xs := seq fb) (i := p) hlt
    have hg := getElem?_seq fb p hp
    rw [List.getElem?_eq_getElem (by simpa using hp)] at hg
    have hg := Option.some.inj hg
    rw [hg, h1] at this; cases this
  · by_contra hn
    have hlt : (seq fb).idxOf true < p := by omega
    have hl : (seq fb).idxOf true < (seq fb).length := by rw [length_seq]; omega
    have hg := getElem?_seq fb _ (by rw [length_seq] at hl; exact hl)
    rw [List.getElem?_eq_getElem hl, List.getElem_idxOf, h2 _ hlt] at hg
    cases hg

theorem val2_drop_seq (fb : BitVec 23) (k : Nat) : val2 ((seq fb).drop k) = fb.toNat % 2 ^ (23 - k) := by
  have := val2_append ((seq fb).take k) ((seq fb).drop k)
  rw [List.take_append_drop, val2_seq] at this
  have hl := val2_lt ((seq fb).drop k)
  simp only [List.length_drop, length_seq] at this hl
  rw [this, Nat.mul_add_mod_self_right, Nat.mod_eq_of_lt hl]

theorem val2_take (s : Bits) (k : Nat) : val2 (s.take k) = val2 s / 2 ^ (s.length - k) := by
  have := val2_append (s.take k) (s.drop k)
  rw [List.take_append_drop] at this
  have hl := val2_lt (s.drop k)
  simp only [List.length_drop] at this hl
  rw [this, Nat.add_comm, Nat.add_mul_div_right _ _ (Nat.two_pow_pos _), Nat.div_eq_of_lt hl, Nat.zero_add]

/-- The port carries every exponent of its range (42_normalize.md R141). -/
theorem toInt_bexpPort (e : Int) (h1 : -512 ≤ e) (h2 : e ≤ 511) : (bexpPort e).toInt = e := by
  rw [bexpPort, BitVec.toInt_ofInt]
  rw [Int.bmod_def]; split <;> omega

/-- NORM.FRAC in terms of the window's number (42_normalize.md R132, R139). -/
theorem normFrac_spec (fb : BitVec 23) (h : fb ≠ 0#23) :
    (normFrac (seq fb)).1.length = 23 ∧ (normFrac (seq fb)).2 = 104 + fb.toNat.log2 ∧ fb.toNat.log2 ≤ 22 ∧
    val2 (normFrac (seq fb)).1 = fb.toNat * 2 ^ (23 - fb.toNat.log2) - 2 ^ 23 := by
  set p := (seq fb).idxOf true with hp
  have hmem := (true_mem_seq fb).mpr h
  have hpl : p < 23 := by simpa using List.idxOf_lt_length_of_mem hmem
  -- fb = 2^(22-p) + rest
  have hsplit : seq fb = rep false p ++ true :: (seq fb).drop (p+1) := by
    have hl : p < (seq fb).length := by simpa using hpl
    have e1 : (seq fb).take p = rep false p := by
      apply List.ext_getElem (by simp; omega)
      intro i h1 h2
      have hi : i < p := by simpa using h2
      have := List.not_of_lt_findIdx (p := (· == true)) (xs := seq fb) (i := i) hi
      simp [rep] at *
      simpa using this
    calc seq fb = (seq fb).take p ++ (seq fb).drop p := (List.take_append_drop _ _).symm
      _ = _ := by rw [e1, List.drop_eq_getElem_cons hl, List.getElem_idxOf hl]
  have hv := congrArg val2 hsplit
  rw [val2_append, val2_rep_false, val2_cons, val2_seq] at hv
  have hl := val2_lt ((seq fb).drop (p+1))
  simp only [List.length_drop, length_seq, Bool.toNat_true, Nat.one_mul, Nat.zero_mul,
      Nat.zero_add] at hv hl
  have hlog : fb.toNat.log2 = 22 - p := by
    apply log2_unique
    · have : 23 - (p+1) = 22 - p := by omega
      rw [this] at hv; omega
    · have : 23 - (p+1) = 22 - p := by omega
      rw [this] at hv hl
      rw [Nat.pow_succ]; omega
  have e2 : (normFrac (seq fb)).1 = (seq fb).drop (p+1) ++ rep false (p+1) := rfl
  refine ⟨?_, ?_, by omega, ?_⟩
  · rw [e2]; simp; omega
  · show Config.bias - (p + 1) = _
    rw [hlog]; simp only [Config.bias]; omega
  · rw [e2, val2_append, val2_rep_false, length_rep, hlog, hv]
    have : 23 - (22 - p) = p + 1 := by omega
    rw [this, Nat.add_mul, ← Nat.pow_add]
    have : 23 - (p+1) + (p+1) = 23 := by omega
    rw [this]; omega

/-- NORM.INT in terms of the integer and the window's number (R135, R139). -/
theorem normInt_spec (int : Nat) (fb : BitVec 23) (h : 2 ≤ int) :
    (normInt int (seq fb)).1.length = 23 ∧ (normInt int (seq fb)).2 = 127 + int.log2 ∧
    val2 (normInt int (seq fb)).1 = (int * 2 ^ 23 + fb.toNat) / 2 ^ int.log2 % 2 ^ 23 := by
  obtain ⟨a, b, c⟩ := int2bin_spec int (by omega)
  set W := int2bin int with hW
  have hlog : 1 ≤ int.log2 := by rw [Nat.le_log2 (by omega)]; omega
  obtain ⟨w, hw⟩ : ∃ w, W = true :: w := by
    cases hh : W with
    | nil => rw [hh] at c; simp at c
    | cons x w => rw [hh] at c; simp at c; exact ⟨w, by rw [c]⟩
  have hwl : w.length = int.log2 := by rw [hw] at b; simpa using b
  have hwv : int = 2 ^ int.log2 + val2 w := by rw [hw, val2_cons, hwl] at a; simp at a; omega
  have e2 : (normInt int (seq fb)).1 = (w ++ seq fb).take 23 := by
    show ((int2bin int).drop 1 ++ seq fb).take Config.mantW = _
    rw [← hW, hw]; rfl
  have hbd := log2_bounds int (by omega)
  refine ⟨?_, ?_, ?_⟩
  · rw [e2]; simp
  · show Config.bias + ((int2bin int).length - 1 : Int) = _
    rw [← hW, b]; simp only [Config.bias]; push_cast; omega
  · rw [e2, val2_take, val2_append, val2_seq, length_seq]
    have : (w ++ seq fb).length - 23 = int.log2 := by simp [hwl]
    rw [this]
    have hlt : (val2 w * 2 ^ 23 + fb.toNat) / 2 ^ int.log2 < 2 ^ 23 := by
      rw [Nat.div_lt_iff_lt_mul (Nat.two_pow_pos _)]
      have := val2_lt w
      rw [hwl] at this
      have := fb.isLt
      nlinarith
    have e : int * 2 ^ 23 + fb.toNat = (val2 w * 2 ^ 23 + fb.toNat) + 2 ^ 23 * 2 ^ int.log2 := by
      generalize int.log2 = k at hwv
      rw [hwv]; ring
    rw [e, Nat.add_mul_div_right _ _ (Nat.two_pow_pos _), Nat.add_mod_right, Nat.mod_eq_of_lt hlt]

/-- The selected case in closed form (R139). -/
theorem normSelect_spec (int : BitVec 64) (fb : BitVec 23) :
   (normSelect int.toNat (seq fb)).1.length = 23 ∧
   (int.toNat * 2 ^ 23 + fb.toNat = 0 → val2 (normSelect int.toNat (seq fb)).1 = 0 ∧
       (normSelect int.toNat (seq fb)).2 = 0) ∧
   (∀ x, x = int.toNat * 2 ^ 23 + fb.toNat → x ≠ 0 → x.log2 ≤ 86 ∧
       (normSelect int.toNat (seq fb)).2 = 104 + x.log2 ∧
       val2 (normSelect int.toNat (seq fb)).1 = mantissaOf x) := by
  have hfb := fb.isLt
  unfold normSelect
  by_cases h0 : int.toNat = 0
  · rw [if_pos h0]
    by_cases hf : fb = 0#23
    · have : ¬ true ∈ seq fb := by rw [true_mem_seq]; simpa using hf
      rw [if_neg this]
      refine ⟨by simp [normZero], fun _ => ⟨by simp [normZero], rfl⟩, ?_⟩
      rintro x rfl hx
      exact absurd (by rw [h0, hf]; rfl) hx
    · rw [if_pos ((true_mem_seq fb).mpr hf)]
      obtain ⟨a, b, c, d⟩ := normFrac_spec fb hf
      refine ⟨a, fun hx => ?_, ?_⟩
      · exact absurd (BitVec.eq_of_toNat_eq (by simp; omega)) hf
      · rintro x rfl hx
        have e : int.toNat * 2 ^ 23 + fb.toNat = fb.toNat := by omega
        rw [e]
        refine ⟨by omega, b, ?_⟩
        rw [d, mantissaOf, if_neg (by omega)]
  · rw [if_neg h0]
    by_cases h1 : int.toNat = 1
    · rw [if_pos h1, h1]
      have hlog : (1 * 2 ^ 23 + fb.toNat).log2 = 23 := log2_unique _ _ (by omega) (by omega)
      refine ⟨by simp [normOne], by omega, ?_⟩
      rintro x rfl hx
      rw [hlog, mantissaOf, hlog]
      refine ⟨by omega, rfl, ?_⟩
      simp only [normOne, val2_seq]
      simp
    · rw [if_neg h1]
      obtain ⟨a, b, c⟩ := normInt_spec int.toNat fb (by omega)
      refine ⟨a, by omega, ?_⟩
      rintro x rfl hx
      have hbd := log2_bounds int.toNat h0
      have hb : int.toNat.log2 < 64 :=
        (Nat.pow_lt_pow_iff_right (a := 2) (by omega)).mp (Nat.lt_of_le_of_lt hbd.1 int.isLt)
      have hlog : (int.toNat * 2 ^ 23 + fb.toNat).log2 = int.toNat.log2 + 23 := by
        apply log2_unique
        · rw [Nat.pow_add]; omega
        · have : int.toNat.log2 + 23 + 1 = (int.toNat.log2 + 1) + 23 := by omega
          rw [this, Nat.pow_add]; omega
      refine ⟨by omega, by rw [b, hlog]; push_cast; omega, ?_⟩
      rw [c, mantissaOf, hlog, if_pos (by omega), Nat.add_sub_cancel]
      have l1 : 2 ^ 23 ≤ (int.toNat * 2 ^ 23 + fb.toNat) / 2 ^ int.toNat.log2 := by
        rw [Nat.le_div_iff_mul_le (Nat.two_pow_pos _)]; nlinarith
      have l2 : (int.toNat * 2 ^ 23 + fb.toNat) / 2 ^ int.toNat.log2 < 2 ^ 24 := by
        rw [Nat.div_lt_iff_lt_mul (Nat.two_pow_pos _)]
        have : 2 ^ (int.toNat.log2 + 1) = 2 * 2 ^ int.toNat.log2 := by ring
        omega
      omega

/-- NORMALIZE raises nothing on the ports' values, and its exponent is in 0 to 190 (R138). -/
theorem normalize_eq (int : BitVec 64) (fb : BitVec 23) :
    normalize int.toNat (seq fb) =
      .ok ⟨(normSelect int.toNat (seq fb)).1, 23, (normSelect int.toNat (seq fb)).2⟩ ∧
    0 ≤ (normSelect int.toNat (seq fb)).2 ∧ (normSelect int.toNat (seq fb)).2 ≤ 190 := by
  obtain ⟨a, b, c⟩ := normSelect_spec int fb
  have hr : 0 ≤ (normSelect int.toNat (seq fb)).2 ∧ (normSelect int.toNat (seq fb)).2 ≤ 190 := by
    by_cases hx : int.toNat * 2 ^ 23 + fb.toNat = 0
    · rw [(b hx).2]; omega
    · obtain ⟨c1, c2, _⟩ := c _ rfl hx
      rw [c2]; omega
  refine ⟨?_, hr⟩
  have : bexpOutOfRange (normSelect int.toNat (seq fb)).2 = false := by
    simp [bexpOutOfRange]; omega
  simp [Machine.normalize, Machine.normRange, this]

/-- The four cases and what selects them (30_encoding.md R89). -/
theorem normCase_cases (int : BitVec 64) (fb : BitVec 23) :
  (int.toNat = 0 ∧ fb = 0#23 ∧ normCase int fb = .normZero) ∨
  (int.toNat = 0 ∧ fb ≠ 0#23 ∧ normCase int fb = .normFrac fb) ∨
  (int.toNat = 1 ∧ normCase int fb = .normOne fb) ∨
  (2 ≤ int.toNat ∧ normCase int fb = .normInt int fb) := by
  unfold normCase
  by_cases h0 : int = 0#64
  · subst h0
    by_cases hf : fb = 0#23
    · simp [hf]
    · simp [hf]
  · rw [if_neg h0]
    have h0' : int.toNat ≠ 0 := fun h => h0 (BitVec.eq_of_toNat_eq h)
    have hx : int.extractLsb' 1 63 = 0#63 ↔ int.toNat < 2 := by
      rw [← BitVec.toNat_inj, BitVec.extractLsb'_toNat]
      have := int.isLt
      simp only [Nat.shiftRight_eq_div_pow, BitVec.toNat_ofNat]
      omega
    by_cases h1 : int.toNat < 2
    · rw [if_pos (hx.mpr h1)]; right; right; left; exact ⟨by omega, rfl⟩
    · rw [if_neg (by rwa [hx])]; right; right; right; exact ⟨by omega, rfl⟩

end Sys2Proof.Machine
end

