-- ==== Sys2Proof/Laws/Pack.lean ====
section
/-! SUPPORT. What the packer writes, as a number and by its length. -/

namespace Sys2Proof.Machine

/-- The packer writes all 32 positions (43_pack.md R156). -/
theorem length_packPositions (sign : Bool) (mant : Bits) (hm : mant.length = 23) (mlen bexp : Nat)
    (hl : mlen ≤ 23) : (packPositions sign mant mlen bexp).length = 32 := by
  simp [packPositions, hm]; omega

/-- The word as a number (43_pack.md R155). -/
theorem val2_packPositions (sign : Bool) (mant : Bits) (hm : mant.length = 23) (mlen bexp : Nat)
    (hl : mlen ≤ 23) (hb : bexp < 256) :
    val2 (packPositions sign mant mlen bexp) =
      sign.toNat * 2 ^ 31 + bexp * 2 ^ 23 + val2 mant / 2 ^ (23 - mlen) * 2 ^ (23 - mlen) := by
  unfold packPositions
  rw [val2_append, val2_append, val2_append, val2_bitsOfNat, val2_rep_false, val2_take, hm]
  simp only [List.length_append, length_rep, List.length_take, hm, length_bitsOfNat, val2_cons, val2_nil,
      List.length_nil, Config.mantW, Config.expW]
  have e : min mlen 23 + (23 - mlen) = 23 := by omega
  rw [e, Nat.mod_eq_of_lt (by omega)]
  ring

theorem bexpOutOfRange_eq_false (b : Int) (h1 : 0 ≤ b) (h2 : b ≤ 255) :
    bexpOutOfRange b = false :=
  decide_eq_false (by show ¬ (b < 0 ∨ 255 < b); omega)

end Sys2Proof.Machine
end

