-- ==== Sys2Proof/Laws/Parse.lean ====
section
/-! SUPPORT. What the parts of PARSE give: digits and their value, the sign marker, the split, the two checks of
form. -/

namespace Sys2Proof.Machine

theorem isDigit_iff_code (c : Byte) : isDigit c = true ↔ IsDigitCode c :=
  isDigit_iff c

/-- The value accumulated over digit values is that accumulated over codes (40_parse.md R104). -/
theorem val10_digitsOf (s : Text) (h : ∀ c ∈ s, IsDigitCode c) : val10 (digitsOf s) = numVal s := by
  induction s using List.reverseRecOn with
  | nil => rfl
  | append_singleton s c ih =>
    have hc : isDigit c = true := (isDigit_iff_code c).mpr (h c (by simp))
    rw [digitsOf, List.map_append, List.map_singleton, val10_append, dval_digit c hc]
    rw [digitsOf] at ih
    rw [ih fun c hc => h c (List.mem_append_left _ hc)]
    simp [numVal]

/-- The digit values, as codes less `0x30` (40_parse.md R106). -/
theorem digitsOf_codes (s : Text) (h : ∀ c ∈ s, IsDigitCode c) :
    (digitsOf s).map (fun d => 0x30 + d.val) = s.map BitVec.toNat := by
  rw [digitsOf, List.map_map]
  refine List.map_congr_left fun c hc => ?_
  have := h c hc
  simp only [Function.comp, dval_digit c ((isDigit_iff_code c).mpr this)]
  exact Nat.add_sub_cancel' this.1

theorem any_not_digit (s : Text) : (s.any fun c => !isDigit c) = true ↔ ∃ c ∈ s, ¬IsDigitCode c := by
  simp [← isDigit_iff_code]

/-- The integer part is digits, and at least one (40_parse.md R103). -/
theorem checkIntPart_eq (ip : Text) :
    (ip ≠ [] ∧ (∀ c ∈ ip, IsDigitCode c) ∧ checkIntPart ip = .ok ()) ∨
      ((ip = [] ∨ ∃ c ∈ ip, ¬IsDigitCode c) ∧ checkIntPart ip = .error .parseError) := by
  unfold checkIntPart
  by_cases h0 : ip = []
  · simp [h0]
  · rw [if_neg (by simpa using h0)]
    by_cases h1 : ∃ c ∈ ip, ¬IsDigitCode c
    · rw [if_pos ((any_not_digit ip).mpr h1)]
      exact .inr ⟨.inr h1, rfl⟩
    · rw [if_neg (by rwa [any_not_digit])]
      exact .inl ⟨h0, by simpa using h1, rfl⟩

/-- The fractional part is digits (40_parse.md R105). -/
theorem checkFracPart_eq (fp : Text) :
    ((∀ c ∈ fp, IsDigitCode c) ∧ checkFracPart fp = .ok ()) ∨
      ((∃ c ∈ fp, ¬IsDigitCode c) ∧ checkFracPart fp = .error .parseError) := by
  unfold checkFracPart
  by_cases h1 : ∃ c ∈ fp, ¬IsDigitCode c
  · rw [if_pos ((any_not_digit fp).mpr h1)]
    exact .inr ⟨h1, rfl⟩
  · rw [if_neg (by rwa [any_not_digit])]
    exact .inl ⟨by simpa using h1, rfl⟩

theorem parseSign_minus (t : Text) : parseSign (minusCode :: t) = (true, t) := by
  simp [parseSign]

theorem parseSign_other (t : Text) (h : t.head? ≠ some minusCode) : parseSign t = (false, t) := by
  cases t with
  | nil => rfl
  | cons c t =>
    have : c ≠ minusCode := by simpa using h
    simp [parseSign, this]

theorem parseSplit_noDot (b : Text) (h : dotCode ∉ b) : parseSplit b = (b, false, []) := by
  have : ¬b.idxOf dotCode < b.length := by rwa [List.idxOf_lt_length_iff]
  simp [parseSplit, this]

theorem parseSplit_dot (ip fp : Text) (h : dotCode ∉ ip) :
    parseSplit (ip ++ dotCode :: fp) = (ip, true, fp) := by
  have e : (ip ++ dotCode :: fp).idxOf dotCode = ip.length := by
    rw [List.idxOf_append_of_notMem h]
    simp
  have : ip.length < (ip ++ dotCode :: fp).length := by simp
  simp only [parseSplit, e, if_pos this]
  simp [List.drop_append]

/-- Every text has a first dot or none. -/
theorem firstDot_cases (b : Text) :
    dotCode ∉ b ∨ ∃ ip fp, b = ip ++ dotCode :: fp ∧ dotCode ∉ ip := by
  by_cases h : dotCode ∈ b
  · obtain ⟨ip, fp, h1, h2⟩ := List.eq_append_cons_of_mem h
    exact .inr ⟨ip, fp, h1, h2⟩
  · exact .inl h

theorem toNat_ofNat64 (n : Nat) (h : n < 2 ^ 64) :
    (BitVec.ofNat 64 n).toNat = n := by
  rw [BitVec.toNat_ofNat, Nat.mod_eq_of_lt h]

/-- PARSE.INT's value, over codes (40_parse.md R104). -/
theorem intValue_eq (ip : Text) (h : ∀ c ∈ ip, IsDigitCode c) :
    intValue ip = if 2 ^ 64 ≤ numVal ip then .error .rangeError else .ok (BitVec.ofNat 64 (numVal ip)) := by
  simp only [intValue, val10_digitsOf ip h, Config.intW]

/-- PARSE.NEG (40_parse.md R107). -/
theorem parseNeg_iff (minus : Bool) (int : BitVec 64) (f) :
    parseNeg minus int f = true ↔ minus = true ∧ (int.toNat ≠ 0 ∨ f ≠ 0) := by
  simp [parseNeg, ← BitVec.toNat_inj]

/-- A digit is neither the sign marker nor the dot. -/
theorem digit_ne (c : Byte) (h : IsDigitCode c) : c ≠ minusCode ∧ c ≠ dotCode := by
  constructor <;> rintro rfl <;> revert h <;> unfold IsDigitCode <;> decide

/-- The sign marker and the split of a text of the grammar (40_parse.md R101, R102). -/
theorem numeral_parts (n : Numeral) (h : n.Grammar) :
    ∃ b, parseSign n.text = (n.minus, b) ∧ parseSplit b = (n.int, n.dot, n.frac) := by
  obtain ⟨h1, h2, h3, h4⟩ := h
  obtain ⟨m, ip, d, fp⟩ := n
  simp only at h1 h2 h3 h4
  have nd : dotCode ∉ ip := fun hh => (digit_ne _ (h2 _ hh)).2 rfl
  refine ⟨ip ++ (if d then 0x2E#8 :: fp else []), ?_, ?_⟩
  · cases m
    · apply parseSign_other
      obtain _ | ⟨c, ip⟩ := ip
      · exact absurd rfl h1
      · simp [Numeral.text, (digit_ne c (h2 c (by simp))).1]
    · exact parseSign_minus _
  · cases d
    · simp only [Bool.false_eq_true, if_false, List.append_nil]
      rw [parseSplit_noDot ip nd, h4 rfl]
    · exact parseSplit_dot ip fp nd

/-- What PARSE gives on a text of the grammar (30_encoding.md R72, 40_parse.md R100). -/
theorem parse_numeral (n : Numeral) (h : n.Grammar) :
    parse n.text =
      if 2 ^ 64 ≤ numVal n.int then .error .rangeError
      else .ok
        { minus := n.minus
          sign := n.negative
          int := BitVec.ofNat 64 (numVal n.int)
          fd := digitsOf n.frac
          k := n.frac.length
          f := numVal n.frac } := by
  obtain ⟨b, e1, e2⟩ := numeral_parts n h
  obtain ⟨h1, h2, h3, h4⟩ := h
  have c1 : checkIntPart n.int = .ok () := by
    rcases checkIntPart_eq n.int with ⟨a, b, c⟩ | ⟨h | ⟨x, h, hh⟩, b⟩
    · exact c
    · exact absurd h h1
    · exact absurd (h2 x h) hh
  have c2 : checkFracPart n.frac = .ok () := by
    rcases checkFracPart_eq n.frac with ⟨a, b⟩ | ⟨⟨x, hx, hh⟩, b⟩
    · exact b
    · exact absurd (h3 x hx) hh
  simp only [parse, e1, e2, c1, c2, intValue_eq n.int h2]
  by_cases hw : 2 ^ 64 ≤ numVal n.int
  · simp only [if_pos hw]
  · have hlt : numVal n.int < 2 ^ 64 := by omega
    simp only [if_neg hw, fracValue, val10_digitsOf n.frac h3]
    congr 2
    rw [Bool.eq_iff_iff, parseNeg_iff, Numeral.negative, toNat_ofNat64 _ hlt]
    simp

/-- Every text is of the grammar, or PARSE raises ParseError on it (30_encoding.md R72). -/
theorem parse_cases (t : Text) :
    (∃ n : Numeral, n.Grammar ∧ n.text = t) ∨ (Malformed t ∧ parse t = .error .parseError) := by
  by_cases hm : ∃ n : Numeral, n.Grammar ∧ n.text = t
  · exact .inl hm
  · right
    refine ⟨fun n hn ht => hm ⟨n, hn, ht⟩, ?_⟩
    obtain ⟨m, b, e1, et⟩ : ∃ m b, parseSign t = (m, b) ∧ t = (if m then [0x2D#8] else []) ++ b := by
      obtain _ | ⟨c, t⟩ := t
      · exact ⟨false, [], rfl, rfl⟩
      · by_cases hc : c = minusCode
        · subst hc; exact ⟨true, t, parseSign_minus t, rfl⟩
        · exact ⟨false, c :: t, parseSign_other _ (by simpa using hc), rfl⟩
    obtain ⟨ip, d, fp, e2, eb, hd⟩ :
        ∃ ip d fp, parseSplit b = (ip, d, fp) ∧ b = ip ++ (if d then 0x2E#8 :: fp else []) ∧
        (d = false → fp = []) := by
      rcases firstDot_cases b with h | ⟨ip, fp, rfl, h⟩
      · exact ⟨b, false, [], parseSplit_noDot b h, by simp, fun _ => rfl⟩
      · exact ⟨ip, true, fp, parseSplit_dot ip fp h, rfl, by simp⟩
    simp only [parse, e1, e2]
    rcases checkIntPart_eq ip with ⟨a1, a2, c⟩ | ⟨_, c⟩
    · rcases checkFracPart_eq fp with ⟨f1, f2⟩ | ⟨_, f2⟩
      · exact absurd ⟨⟨m, ip, d, fp⟩, ⟨a1, a2, f1, hd⟩, by rw [et, eb]; simp [Numeral.text]⟩ hm
      · simp [c, f2]
    · simp [c]

end Sys2Proof.Machine
end

