-- ==== Sys2Proof/Laws/PerInstr.lean ====
section
/-! SUPPORT. The family `EncodedFormat`: which format each row's command has (30_encoding.md R88 for the
operations, R71 for character codes, R85 for status codes, R80 for result words, R89 for the case rows). -/

namespace Sys2Proof.Laws

/-- The format a row is given in. -/
def rowFormat : Instr → Format
  | .parse _ => .op
  | .parseSign _ => .op
  | .parseSplit _ => .op
  | .parseInt _ => .op
  | .parseFrac _ => .op
  | .parseNeg _ _ _ => .op
  | .frac2bin _ _ => .op
  | .int2bin _ => .op
  | .normalize _ _ => .op
  | .normFrac _ => .normPorts
  | .normZero => .normPorts
  | .normOne _ => .normPorts
  | .normInt _ _ => .normPorts
  | .normRange _ => .op
  | .pack _ _ _ _ => .op
  | .convert _ => .op
  | .start _ => .op
  | .complete => .op
  | .read => .op
  | .reset => .op
  | .charMinus => .char8
  | .charDot => .char8
  | .charDigit07 _ => .char8
  | .charDigit89 _ => .char8
  | .charIllegal _ => .char8
  | .statusOk => .status2
  | .statusParseError => .status2
  | .statusRangeError => .status2
  | .statusReserved => .status2
  | .f32 _ _ _ => .word32

/-- The command of a row has the row's format, and is never empty. -/
def EncodedFormat.Statement (i : Instr) : Prop :=
  (encode i).fmt = rowFormat i ∧ (encode i).bytes ≠ []

theorem EncodedFormat.parse (t : Text) :
    EncodedFormat.Statement (.parse t) :=
  ⟨rfl, List.cons_ne_nil _ _⟩

theorem EncodedFormat.parseSign (t : Text) :
    EncodedFormat.Statement (.parseSign t) :=
  ⟨rfl, List.cons_ne_nil _ _⟩

theorem EncodedFormat.parseSplit (t : Text) :
    EncodedFormat.Statement (.parseSplit t) :=
  ⟨rfl, List.cons_ne_nil _ _⟩

theorem EncodedFormat.parseInt (t : Text) :
    EncodedFormat.Statement (.parseInt t) :=
  ⟨rfl, List.cons_ne_nil _ _⟩

theorem EncodedFormat.parseFrac (t : Text) :
    EncodedFormat.Statement (.parseFrac t) :=
  ⟨rfl, List.cons_ne_nil _ _⟩

theorem EncodedFormat.parseNeg (m : Bool) (n : BitVec 64) (f : Nat) :
    EncodedFormat.Statement (.parseNeg m n f) :=
  ⟨rfl, List.cons_ne_nil _ _⟩

theorem EncodedFormat.frac2bin (f k : Nat) :
    EncodedFormat.Statement (.frac2bin f k) :=
  ⟨rfl, List.cons_ne_nil _ _⟩

theorem EncodedFormat.int2bin (n : BitVec 64) :
    EncodedFormat.Statement (.int2bin n) :=
  ⟨rfl, List.cons_ne_nil _ _⟩

theorem EncodedFormat.normalize (n : BitVec 64) (fb : BitVec 23) :
    EncodedFormat.Statement (.normalize n fb) :=
  ⟨rfl, List.cons_ne_nil _ _⟩

theorem EncodedFormat.normFrac (fb : BitVec 23) :
    EncodedFormat.Statement (.normFrac fb) :=
  ⟨rfl, List.cons_ne_nil _ _⟩

theorem EncodedFormat.normZero :
    EncodedFormat.Statement .normZero :=
  ⟨rfl, List.cons_ne_nil _ _⟩

theorem EncodedFormat.normOne (fb : BitVec 23) :
    EncodedFormat.Statement (.normOne fb) :=
  ⟨rfl, List.cons_ne_nil _ _⟩

theorem EncodedFormat.normInt (n : BitVec 64) (fb : BitVec 23) :
    EncodedFormat.Statement (.normInt n fb) :=
  ⟨rfl, List.cons_ne_nil _ _⟩

theorem EncodedFormat.normRange (b : BitVec 10) :
    EncodedFormat.Statement (.normRange b) :=
  ⟨rfl, List.cons_ne_nil _ _⟩

theorem EncodedFormat.pack (s : Bool) (m : BitVec 23) (l : BitVec 5) (b : BitVec 10) :
    EncodedFormat.Statement (.pack s m l b) :=
  ⟨rfl, List.cons_ne_nil _ _⟩

theorem EncodedFormat.convert (t : Text) :
    EncodedFormat.Statement (.convert t) :=
  ⟨rfl, List.cons_ne_nil _ _⟩

theorem EncodedFormat.start (t : Text) :
    EncodedFormat.Statement (.start t) :=
  ⟨rfl, List.cons_ne_nil _ _⟩

theorem EncodedFormat.complete :
    EncodedFormat.Statement .complete :=
  ⟨rfl, List.cons_ne_nil _ _⟩

theorem EncodedFormat.read :
    EncodedFormat.Statement .read :=
  ⟨rfl, List.cons_ne_nil _ _⟩

theorem EncodedFormat.reset :
    EncodedFormat.Statement .reset :=
  ⟨rfl, List.cons_ne_nil _ _⟩

theorem EncodedFormat.charMinus :
    EncodedFormat.Statement .charMinus :=
  ⟨rfl, List.cons_ne_nil _ _⟩

theorem EncodedFormat.charDot :
    EncodedFormat.Statement .charDot :=
  ⟨rfl, List.cons_ne_nil _ _⟩

theorem EncodedFormat.charDigit07 (d : BitVec 3) :
    EncodedFormat.Statement (.charDigit07 d) :=
  ⟨rfl, List.cons_ne_nil _ _⟩

theorem EncodedFormat.charDigit89 (d : BitVec 1) :
    EncodedFormat.Statement (.charDigit89 d) :=
  ⟨rfl, List.cons_ne_nil _ _⟩

theorem EncodedFormat.charIllegal (c : Byte) :
    EncodedFormat.Statement (.charIllegal c) :=
  ⟨rfl, List.cons_ne_nil _ _⟩

theorem EncodedFormat.statusOk :
    EncodedFormat.Statement .statusOk :=
  ⟨rfl, List.cons_ne_nil _ _⟩

theorem EncodedFormat.statusParseError :
    EncodedFormat.Statement .statusParseError :=
  ⟨rfl, List.cons_ne_nil _ _⟩

theorem EncodedFormat.statusRangeError :
    EncodedFormat.Statement .statusRangeError :=
  ⟨rfl, List.cons_ne_nil _ _⟩

theorem EncodedFormat.statusReserved :
    EncodedFormat.Statement .statusReserved :=
  ⟨rfl, List.cons_ne_nil _ _⟩

theorem EncodedFormat.f32 (s : Bool) (e : BitVec 8) (m : BitVec 23) :
    EncodedFormat.Statement (.f32 s e m) :=
  ⟨rfl, List.cons_ne_nil _ _⟩

end Sys2Proof.Laws
end

