-- ==== Sys2Proof/Tests/Slice0.lean ====
section
/-! SUPPORT. Tests on fixed values, their expected results taken from spec/95_test_vectors.md (section named in
each comment) or written out from the encodings of spec/30_encoding.md, and for every obligation with hypotheses
a named witness that meets them. -/

namespace Sys2Proof.Tests

open Sys2Proof Sys2Proof.Machine

/-- The next state, if there is one. -/
def nextOf (o : Host.Outcome State Fault Refusal) : Option State :=
  match o with
  | .next s => some s
  | _ => none

/-- The refusal, if it is one. -/
def refusalOf (o : Host.Outcome State Fault Refusal) : Option Refusal :=
  match o with
  | .refused r => some r
  | _ => none

/-- What PARSE's outputs hold after an instruction run from reset. -/
def parseAfter (i : Instr) : Option ParsePorts :=
  (nextOf (exec i State.reset)).map (·.ports.parse)

/-- What the converter's outputs hold after an instruction run from reset. -/
def binAfter (i : Instr) : Option BinPorts :=
  (nextOf (exec i State.reset)).map (·.ports.bin)

/-- What the normalizer's ports hold after an instruction run from reset. -/
def normAfter (i : Instr) : Option NormPorts :=
  (nextOf (exec i State.reset)).map (·.ports.norm)

/-- What the packer's ports hold after an instruction run from reset. -/
def packAfter (i : Instr) : Option PackPorts :=
  (nextOf (exec i State.reset)).map (·.ports.pack)

/-- A transaction in flight with a text in the buffer. -/
def inFlight (t : Text) : State :=
  { State.reset with text := Memory.writeRange [] 0 t, len := some t.length, busy := some true }

/-- A response of the block, ready to be read. -/
def answered (t : Text) (st : Status) (w : Option (BitVec 32)) : State :=
  { inFlight t with busy := some false, rspValid := some true, status := some st, p := w }

/-- `"5.5"`. -/
def txt5p5 : Text := [0x35#8, 0x2E#8, 0x35#8]

/-- `"1.2.3"`. -/
def txtDots : Text := [0x31#8, 0x2E#8, 0x32#8, 0x2E#8, 0x33#8]

/-- `"18446744073709551616"`. -/
def txtWide : Text :=
  [0x31#8, 0x38#8, 0x34#8, 0x34#8, 0x36#8, 0x37#8, 0x34#8, 0x34#8, 0x30#8, 0x37#8] ++
  [0x33#8, 0x37#8, 0x30#8, 0x39#8, 0x35#8, 0x35#8, 0x31#8, 0x36#8, 0x31#8, 0x36#8]

/-! ### WellFormed: an ill-formed term for each check, and that it is refused -/

theorem test_wf_frac2bin_five_over_one : (Instr.frac2bin 5 0).wf = false := by decide

theorem test_wf_normFrac_zero : (Instr.normFrac 0#23).wf = false := by decide

theorem test_wf_normInt_one : (Instr.normInt 1#64 0#23).wf = false := by decide

theorem test_wf_charIllegal_five : (Instr.charIllegal 0x35#8).wf = false := by decide

theorem test_ill_formed_terms_are_refused :
    refusalOf (exec (.frac2bin 5 0) State.reset) = some .outsideDomain ∧
    refusalOf (exec (.normFrac 0#23) State.reset) = some .outsideDomain ∧
    refusalOf (exec (.normInt 1#64 0#23) State.reset) = some .outsideDomain ∧
    refusalOf (exec (.charIllegal 0x35#8) State.reset) = some .outsideDomain := by decide

/-! ### Decoding, on words written out from the encodings of 30_encoding.md -/

/-- R71: the match/mask rows, and a code of the complement (`'+'`). -/
theorem test_decode_characters :
    decode ⟨.char8, [0b00101101#8]⟩ = .ok .charMinus ∧
    decode ⟨.char8, [0b00101110#8]⟩ = .ok .charDot ∧
    decode ⟨.char8, [0b00110110#8]⟩ = .ok (.charDigit07 0b110#3) ∧
    decode ⟨.char8, [0b00111000#8]⟩ = .ok (.charDigit89 0b0#1) ∧
    decode ⟨.char8, [0b00111010#8]⟩ = .ok (.charIllegal 0x3A#8) ∧
    decode ⟨.char8, [0b00101111#8]⟩ = .ok (.charIllegal 0x2F#8) := by decide

/-- R85. -/
theorem test_decode_status_codes :
    decode ⟨.status2, [0b00#8]⟩ = .ok .statusOk ∧ decode ⟨.status2, [0b01#8]⟩ = .ok .statusParseError ∧
    decode ⟨.status2, [0b10#8]⟩ = .ok .statusRangeError ∧
    decode ⟨.status2, [0b11#8]⟩ = .ok .statusReserved ∧
    decode ⟨.status2, [0b100#8]⟩ = .error .reservedBits := by decide

/-- R80 and V1.2: `0xBF000000` is `1 01111110 000…0`, lowest byte first. -/
theorem test_decode_result_word :
    decode ⟨.word32, [0x00#8, 0x00#8, 0x00#8, 0xBF#8]⟩ = .ok (.f32 true 0b01111110#8 0#23) ∧
    decode ⟨.word32, [0x00#8, 0x00#8, 0xB0#8, 0x40#8]⟩ =
      .ok (.f32 false 0b10000001#8 0b01100000000000000000000#23) := by decide

/-- R89: `int` in the low eight bytes, `fb` in the next three. -/
theorem test_decode_normalizer_cases :
    decode ⟨.normPorts, [0, 0, 0, 0, 0, 0, 0, 0, 0x00, 0x00, 0x00]⟩ = .ok .normZero ∧
    decode ⟨.normPorts, [0, 0, 0, 0, 0, 0, 0, 0, 0x00, 0x00, 0x40]⟩ =
      .ok (.normFrac 0b10000000000000000000000#23) ∧
    decode ⟨.normPorts, [1, 0, 0, 0, 0, 0, 0, 0, 0x01, 0x00, 0x00]⟩ = .ok (.normOne 1#23) ∧
    decode ⟨.normPorts, [0, 1, 0, 0, 0, 0, 0, 0, 0x00, 0x00, 0x40]⟩ =
      .ok (.normInt 256#64 0b10000000000000000000000#23) := by decide

/-- Operation requests by their row's number (log entry 2). -/
theorem test_decode_parse_rows :
    decode ⟨.op, [0, 0x35, 0x2E]⟩ = .ok (.parse [0x35, 0x2E]) ∧
    decode ⟨.op, [1, 0x2D]⟩ = .ok (.parseSign [0x2D]) ∧
    decode ⟨.op, [2, 0x2E]⟩ = .ok (.parseSplit [0x2E]) ∧
    decode ⟨.op, [3, 0x35]⟩ = .ok (.parseInt [0x35]) ∧
    decode ⟨.op, [4]⟩ = .ok (.parseFrac []) ∧
    decode ⟨.op, [5, 1, 2, 0, 0, 0, 0, 0, 0, 0, 3, 4]⟩ = .ok (.parseNeg true 2#64 0x403) := by decide

theorem test_decode_stage_rows :
    decode ⟨.op, [6, 0x37, 0x37]⟩ = .ok (.frac2bin 77 2) ∧
    decode ⟨.op, [7, 118, 0, 0, 0, 0, 0, 0, 0]⟩ = .ok (.int2bin 118#64) ∧
    decode ⟨.op, [8, 118, 0, 0, 0, 0, 0, 0, 0, 0x00, 0x00, 0x50]⟩ =
      .ok (.normalize 118#64 0b10100000000000000000000#23) ∧
    decode ⟨.op, [13, 0xFF, 0x03]⟩ = .ok (.normRange 0b1111111111#10) ∧
    decode ⟨.op, [14, 1, 0, 0x40, 0x6D, 23, 133, 0]⟩ =
      .ok (.pack true 0b11011010100000000000000#23 23#5 133#10) := by decide

theorem test_decode_convert_and_steps :
    decode ⟨.op, [15, 0x35]⟩ = .ok (.convert [0x35]) ∧ decode ⟨.op, [16]⟩ = .ok (.start []) ∧
    decode ⟨.op, [17]⟩ = .ok .complete ∧ decode ⟨.op, [18]⟩ = .ok .read ∧
    decode ⟨.op, [19]⟩ = .ok .reset := by decide

/-- Bytes that are no instruction, each by its name. -/
theorem test_decode_rejects :
    decode ⟨.op, []⟩ = .error .wrongLength ∧ decode ⟨.op, [20]⟩ = .error .unknownSelector ∧
    decode ⟨.op, [6, 0x2E]⟩ = .error .notADigit ∧ decode ⟨.op, [13, 0, 4]⟩ = .error .reservedBits ∧
    decode ⟨.op, [5, 0, 0, 0, 0, 0, 0, 0, 0, 0, 1, 0]⟩ = .error .notCanonical := by decide

/-- The table's words: a character, a status code, a result word, the ports by their value. -/
theorem test_decode_table_words :
    decodeTableWord 8 0x2D = some .charMinus ∧ decodeTableWord 8 0x39 = some (.charDigit89 1#1) ∧
    decodeTableWord 8 2 = some .statusRangeError ∧ decodeTableWord 2 1 = some .statusParseError ∧
    decodeTableWord 32 0x3F800000 = some (.f32 false 0b01111111#8 0#23) ∧
    decodeTableWord 64 1 = some (.normOne 0#23) ∧ decodeTableWord 87 (2 ^ 64) = some (.normFrac 1#23) := by
  decide

/-! ### PARSE (95_test_vectors.md 2.1) -/

/-- `"-0.0"`: the marker is there, the value is not negative. -/
theorem test_parse_minus_zero :
    parseAfter (.parse [0x2D, 0x30, 0x2E, 0x30]) = some
      { minus := some true, sign := some false, int := some 0#64, fd := some [0], k := some 1,
        f := some 0 } := by decide

/-- `"99999999999999999999999.2.3"`: the malformed fraction wins over the width. -/
theorem test_parse_checks_form_first :
    parseAfter (.parse (List.replicate 23 0x39 ++ [0x2E, 0x32, 0x2E, 0x33])) =
      some { raised := some .parseError } := by decide

theorem test_parseSign_second_minus_stays :
    parseAfter (.parseSign [0x2D, 0x2D, 0x35]) =
      some { minus := some true, body := some [0x2D, 0x35] } := by decide

theorem test_parseSplit_at_first_dot :
    parseAfter (.parseSplit txtDots) = some
      { ip := some [0x31], hasDot := some true, fp := some [0x32, 0x2E, 0x33] } := by decide

/-- `"18446744073709551615"` fits; one more does not. -/
theorem test_parseInt_width :
    parseAfter (.parseInt (txtWide.take 19 ++ [0x35])) = some { int := some 0xFFFFFFFFFFFFFFFF#64 } ∧
    parseAfter (.parseInt txtWide) = some { raised := some .rangeError } := by decide

/-- `"0010"` of `"0.0010"`. -/
theorem test_parseFrac_leading_zeros :
    parseAfter (.parseFrac [0x30, 0x30, 0x31, 0x30]) =
      some { fd := some [0, 0, 1, 0], k := some 4, f := some 10 } ∧
    parseAfter (.parseFrac [0x35, 0x66]) = some { raised := some .parseError } := by decide

/-- `"-0.00000001"` is negative. -/
theorem test_parseNeg_small_value :
    parseAfter (.parseNeg true 0#64 1) = some { sign := some true } ∧
    parseAfter (.parseNeg true 0#64 0) = some { sign := some false } := by decide

/-! ### INT2BIN and FRAC2BIN (2.2, 2.3) -/

theorem test_int2bin_zero_and_118 :
    binAfter (.int2bin 0#64) = some { w := some [false], kw := some 1 } ∧
    binAfter (.int2bin 118#64) =
      some { w := some [true, true, true, false, true, true, false], kw := some 7 } := by decide

theorem test_frac2bin_77_100_and_2_to_minus_23 :
    binAfter (.frac2bin 77 2) = some { fb := some 0b11000101000111101011100#23 } ∧
    binAfter (.frac2bin 11920928955078125 23) = some { fb := some 1#23 } := by decide

/-! ### NORMALIZE (2.4, P5) -/

theorem test_normalize_118_625 :
    normAfter (.normalize 118#64 0b10100000000000000000000#23) = some
      { mant := some 0x6D4000#23, mlen := some 23#5, bexp := some 0b0010000101#10,
        rangeErr := some false } := by decide

theorem test_normalize_5_77 :
    normAfter (.normalize 5#64 0b11000101000111101011100#23) = some
      { mant := some 0b01110001010001111010111#23, mlen := some 23#5, bexp := some 129#10,
        rangeErr := some false } := by decide

theorem test_normFrac_p_3 :
    normAfter (.normFrac 0b00011001100110011001100#23) = some
      { mant := some 0b10011001100110011000000#23, mlen := some 23#5, bexp := some 123#10 } := by decide

theorem test_normZero_true_zero :
    normAfter .normZero = some { mant := some 0#23, mlen := some 23#5, bexp := some 0#10 } := by decide

theorem test_normOne_copies_the_window :
    normAfter (.normOne 0b01000000000000000000000#23) = some
      { mant := some 0b01000000000000000000000#23, mlen := some 23#5, bexp := some 127#10 } := by decide

theorem test_normInt_16777217_truncates :
    normAfter (.normInt 16777217#64 0#23) = some
      { mant := some 0#23, mlen := some 23#5, bexp := some 151#10 } ∧
    normAfter (.normInt 123456789#64 0#23) = some
      { mant := some 0b11010110111100110100010#23, mlen := some 23#5, bexp := some 153#10 } := by decide

theorem test_normRange_edges :
    normAfter (.normRange 255#10) = some { rangeErr := some false } ∧
    normAfter (.normRange 256#10) = some { rangeErr := some true } ∧
    normAfter (.normRange 0b1111111111#10) = some { rangeErr := some true } := by decide

/-! ### PACK (2.5) -/

/-- The row with `MLEN` = 3: the port's low bits are ignored. -/
theorem test_pack_ignores_low_port_bits :
    packAfter (.pack false 0b01111111111111111111111#23 3#5 129#10) =
      some { word := some 0x40B00000#32, rangeErr := some false } := by decide

theorem test_pack_range_errors :
    packAfter (.pack false 0#23 23#5 0b1000000000#10) = some { rangeErr := some true } ∧
    packAfter (.pack false 0#23 24#5 127#10) = some { rangeErr := some true } := by decide

/-! ### CONVERT (2.6) -/

/-- `"-0.1"`, V2.26. -/
theorem test_convert_minus_tenth : convert [0x2D, 0x30, 0x2E, 0x31] = .ok 0xBDCCCCC0#32 := by decide

/-- `"123456789"`, V2.34. -/
theorem test_convert_truncates :
    convert [0x31, 0x32, 0x33, 0x34, 0x35, 0x36, 0x37, 0x38, 0x39] = .ok 0x4CEB79A2#32 := by decide

/-! ### The transaction steps (2.7), from states written down for them -/

/-- Row 4, for a buffer of at least three cells. -/
theorem test_start_writes_the_text (h : 3 ≤ Config.textMax) :
    ∃ s, exec (.start txt5p5) State.reset = .next s ∧
      s.text = [(0, 0x35#8), (1, 0x2E#8), (2, 0x35#8)] ∧ s.len = some 3 ∧ s.busy = some true ∧
      s.rspValid = some false := by
  exact ⟨State.reset.handOver txt5p5, by simp [exec, execStart, State.reset, txt5p5, h], by decide,
    by decide, by decide, by decide⟩

/-- Row 7. -/
theorem test_complete_publishes :
    nextOf (exec .complete (inFlight txt5p5)) = some (answered txt5p5 .ok (some 0x40B00000#32)) := by
  decide

/-- Row 11: no bits under an error. -/
theorem test_complete_error :
    nextOf (exec .complete (inFlight txtDots)) = some (answered txtDots .parseError none) := by decide

/-- Rows 8 and 12. -/
theorem test_read_returns :
    (nextOf (exec .read (answered txt5p5 .ok (some 0x40B00000#32)))).map (·.host) =
      some { status := some .ok, word := some 0x40B00000#32 } ∧
    (nextOf (exec .read (answered txtDots .parseError none))).map (·.host) =
      some { status := some .parseError, word := none } := by decide

/-- Rows 2, 3, 5 and 6. -/
theorem test_steps_not_enabled :
    refusalOf (exec .read State.reset) = some .readWithoutResponse ∧
    refusalOf (exec .complete State.reset) = some .completeWhileIdle ∧
    refusalOf (exec (.start [0x37]) (inFlight txt5p5)) = some .startWhileBusy ∧
    refusalOf (exec .read (inFlight txt5p5)) = some .readWithoutResponse := by decide

/-- 10_state.md R32: NORM.RANGE and READ find nothing of the step before on the ports. -/
theorem test_ports_are_no_storage :
    (nextOf (runAll [.normOne 1#23, .normRange 127#10] State.reset)).map (·.ports) =
      some { norm := { rangeErr := some false } } ∧
    (nextOf (runAll [.normOne 1#23, .read] (answered txtDots .parseError none))).map (·.ports) =
      some {} := by decide

/-- 30_encoding.md R84: sign 0, exponent 1 to 8, mantissa 9 to 31, total 32. -/
theorem test_field_boundaries :
    [Config.signPos, Config.expPos, Config.expLast, Config.mantPos, Config.mantLast, Config.totalW] =
      [0, 1, 8, 9, 31, 32] ∧
    Config.expLast + 1 - Config.expPos = Config.expW ∧ Config.mantPos = Config.expLast + 1 ∧
    Config.mantLast + 1 - Config.mantPos = Config.mantW ∧ Config.mantLast + 1 = Config.totalW := by decide

/-- Rows 1 and 14. -/
theorem test_reset_from_anything :
    nextOf (exec .reset State.powerOn) = some State.reset ∧
    nextOf (exec .reset (inFlight txt5p5)) = some State.reset := by decide

/-! ### Rows that are words of a format -/

/-- `"-5.8"` read character by character: the second `'-'` of `"--"` is a ParseError (30_encoding.md R74). -/
theorem test_characters_in_place :
    (nextOf (runAll [.charMinus, .charDigit07 5, .charDot, .charDigit89 0] State.reset)).map (·.scan) =
      some (.reading { pos := 4, minus := true, hasDot := true, ip := [5], fp := [8] }) ∧
    (nextOf (runAll [.charMinus, .charMinus] State.reset)).map (·.scan) = some .parseError ∧
    (nextOf (exec (.charIllegal 0x2B) State.reset)).map (·.scan) = some .parseError := by decide

/-- R85: under an error kind there is no word. -/
theorem test_status_drops_the_word :
    (nextOf (runAll [.f32 false 0b10000001 0x300000, .statusOk] State.reset)).map (·.host) =
      some { status := some .ok, word := some 0x40B00000#32 } ∧
    (nextOf (runAll [.f32 false 0b10000001 0x300000, .statusRangeError] State.reset)).map (·.host) =
      some { status := some .rangeError, word := none } ∧
    refusalOf (exec .statusReserved State.reset) = some .statusReserved := by decide

/-- A step runs the word at the front of the schedule: `'-'`, then nothing more is scheduled. -/
theorem test_step_runs_the_table_word :
    (nextOf (step (State.reset.withFetchWord 8 0x2D))).map (fun s => (s.scan, s.script)) =
      some (.reading { pos := 1, minus := true }, []) := by decide

/-! ### Witnesses: for every obligation with hypotheses, something that meets them -/

theorem witness_DecodeOfEncodeIsIdentity :
    (Instr.frac2bin 99 2).wf = true ∧ (Instr.frac2bin 0 0).wf = true ∧ (Instr.normFrac 1#23).wf = true ∧
    (Instr.normInt 2#64 0#23).wf = true ∧ (Instr.charIllegal 0x2F#8).wf = true ∧
    (Instr.charIllegal 0x3A#8).wf = true ∧ (Instr.parse [0x35]).wf = true := by decide

theorem witness_DecodableCommandsAreEncodings :
    decode ⟨.op, [14, 1, 0, 0x40, 0x6D, 23, 133, 0]⟩ = .ok (.pack true 0x6D4000#23 23#5 133#10) := by
  decide

theorem witness_NormalizerPortsSelectTheirCase :
    ((0#64).toNat = 0 ∧ (0#23).toNat = 0) ∧ ((0#64).toNat = 0 ∧ (1#23).toNat ≠ 0) ∧
    (1#64).toNat = 1 ∧ 2 ≤ (2#64).toNat ∧ 2 ≤ (0xFFFFFFFFFFFFFFFF#64).toNat := by decide

theorem witness_StepRunsTheDecodedCommand :
    ∃ (s : State) (c : Command) (rest : List Command) (i : Instr),
      s.script = c :: rest ∧ decode c = .ok i :=
  ⟨State.reset.push ⟨.char8, [0x2D]⟩, ⟨.char8, [0x2D]⟩, [], .charMinus, rfl, by decide⟩

theorem witness_StepRunsTheTableWord : decodeTableWord 8 0x35 = some (.charDigit07 5#3) := by decide

theorem witness_StepWithNothingScheduled :
    (State.reset.script = [] ∧ State.reset.busy ≠ some true) ∧
    ((inFlight txt5p5).script = [] ∧ (inFlight txt5p5).busy = some true) := by decide

theorem witness_ParseSignStripsOneMarker :
    (∃ rest : Text, [0x2D#8, 0x2D#8] = 0x2D#8 :: rest) ∧ ([] : Text).head? ≠ some 0x2D#8 ∧
    ([0x2B#8] : Text).head? ≠ some 0x2D#8 := ⟨⟨[0x2D#8], rfl⟩, by decide, by decide⟩

theorem witness_ParseSplitIsAtTheFirstDot :
    (0x2E#8 ∉ ([] : Text)) ∧ (0x2E#8 ∉ ([0x2F#8] : Text)) ∧
    (∃ ip fp : Text, txtDots = ip ++ 0x2E#8 :: fp ∧ 0x2E#8 ∉ ip) :=
  ⟨by decide, by decide, [0x31#8], [0x32#8, 0x2E#8, 0x33#8], rfl, by decide⟩

theorem witness_ParseIntChecksFormThenWidth :
    (∃ c ∈ ([0x3A#8] : Text), ¬IsDigitCode c) ∧
    ((∀ c ∈ txtWide, IsDigitCode c) ∧ txtWide ≠ [] ∧ 2 ^ 64 ≤ numVal txtWide) ∧
    ((∀ c ∈ txtWide.take 19 ++ [0x35#8], IsDigitCode c) ∧ numVal (txtWide.take 19 ++ [0x35#8]) < 2 ^ 64 ∧
      txtWide.take 19 ++ [0x35#8] ≠ []) := by
  unfold IsDigitCode; decide

theorem witness_ParseFracKeepsTheTypedDigits :
    (∃ c ∈ ([0x2F#8] : Text), ¬IsDigitCode c) ∧ (∀ c ∈ ([] : Text), IsDigitCode c) ∧
    (∀ c ∈ ([0x30#8, 0x39#8] : Text), IsDigitCode c) := by
  unfold IsDigitCode; decide

/-- `"-0.5"`. -/
def numMinusHalf : Numeral := ⟨true, [0x30#8], true, [0x35#8]⟩

/-- `"18446744073709551615"`, the widest integer part that fits. -/
def numWidest : Numeral := ⟨false, txtWide.take 19 ++ [0x35#8], false, []⟩

/-- `"18446744073709551616"`. -/
def numTooWide : Numeral := ⟨false, txtWide, false, []⟩

theorem grammar_numMinusHalf : numMinusHalf.Grammar := by
  unfold Numeral.Grammar IsDigitCode numMinusHalf; decide

theorem grammar_numWidest : numWidest.Grammar := by
  unfold Numeral.Grammar IsDigitCode numWidest; decide

theorem grammar_numTooWide : numTooWide.Grammar := by
  unfold Numeral.Grammar IsDigitCode numTooWide; decide

theorem witness_ParseOfANumeralGivesItsValues :
    (numMinusHalf.Grammar ∧ numVal numMinusHalf.int < 2 ^ 64) ∧
    (numWidest.Grammar ∧ numVal numWidest.int < 2 ^ 64) :=
  ⟨⟨grammar_numMinusHalf, by decide⟩, grammar_numWidest, by decide⟩

/-- The empty text is outside the grammar. -/
theorem witness_ParseOfAMalformedTextRaises : Malformed [] := by
  intro n hg ht
  have h := List.append_eq_nil_iff.mp (List.append_eq_nil_iff.mp ht).1
  exact hg.1 h.2

theorem witness_ParseOfAWideIntegerRaises : numTooWide.Grammar ∧ 2 ^ 64 ≤ numVal numTooWide.int :=
  ⟨grammar_numTooWide, by decide⟩

theorem witness_CharacterRowsReadWhatParseReads : State.reset.scan = .reading {} := rfl

theorem witness_CharacterRowsInTheirPlace :
    State.scan { State.reset with scan := .parseError } = .parseError ∧
    (0x2F#8).toNat ∉ legalCodes ∧ (0x3A#8).toNat ∉ legalCodes ∧ (0x00#8).toNat ∉ legalCodes ∧
    State.scan { State.reset with scan := .reading { pos := 2, hasDot := true } } =
      .reading { pos := 2, hasDot := true } := by decide

theorem witness_Frac2bin_domain : 99 < 10 ^ 2 ∧ 0 < 10 ^ 0 ∧ 119209289550781249 < 10 ^ 24 := by decide

theorem witness_Frac2binDependsOnTheRational : 5 < 10 ^ 1 ∧ 5 * 10 ^ 2 = 50 * 10 ^ 1 := by decide

theorem witness_NormFracKeepsTheBitsAfterTheFirstOne :
    (22 < 23 ∧ (1#23).getMsbD 22 = true ∧ ∀ i, i < 22 → (1#23).getMsbD i = false) ∧
    (0 < 23 ∧ (0x400000#23).getMsbD 0 = true ∧ ∀ i, i < 0 → (0x400000#23).getMsbD i = false) := by decide

theorem witness_NormIntTruncatesTheConcatenation :
    (2 ≤ (2#64).toNat ∧ 2 ^ (2 - 1) ≤ (2#64).toNat ∧ (2#64).toNat < 2 ^ 2) ∧
    (2 ≤ (0xFFFFFFFFFFFFFFFF#64).toNat ∧ 2 ^ (64 - 1) ≤ (0xFFFFFFFFFFFFFFFF#64).toNat ∧
      (0xFFFFFFFFFFFFFFFF#64).toNat < 2 ^ 64) := by decide

theorem witness_NormalizeRunsTheSelectedCase :
    decode (portsCommand 0#64 0#23) = .ok .normZero ∧
    decode (portsCommand 0#64 1#23) = .ok (.normFrac 1#23) ∧
    decode (portsCommand 1#64 1#23) = .ok (.normOne 1#23) ∧
    decode (portsCommand 2#64 1#23) = .ok (.normInt 2#64 1#23) := by decide

theorem witness_NormalizeClosedForm :
    (0#64).toNat * 2 ^ 23 + (0#23).toNat = 0 ∧ (0#64).toNat * 2 ^ 23 + (1#23).toNat ≠ 0 ∧
    (0xFFFFFFFFFFFFFFFF#64).toNat * 2 ^ 23 + (0x7FFFFF#23).toNat ≠ 0 := by decide

theorem witness_NormalizeReachableResults :
    ((0#64).toNat = 0 ∧ (0#23).toNat = 0) ∧ ((0#64).toNat = 0 ∧ (1#23).toNat ≠ 0) ∧
    (1#64).toNat = 1 ∧ 2 ≤ (2#64).toNat := by decide

theorem witness_NormRangeChecksTheExponent :
    (0 ≤ (0#10).toInt ∧ (0#10).toInt ≤ 255) ∧ (0 ≤ (255#10).toInt ∧ (255#10).toInt ≤ 255) ∧
    (0x3FF#10).toInt < 0 ∧ 255 < (256#10).toInt := by decide

theorem witness_BexpPortCarriesTheExponent :
    (10 : Nat) ≤ 10 ∧ ((-512 : Int) ≤ -512 ∧ (-512 : Int) ≤ 511) ∧
    ((-512 : Int) ≤ 511 ∧ (511 : Int) ≤ 511) := by decide

theorem witness_PackWritesTheThreeFields :
    (0 ≤ (255#10).toInt ∧ (255#10).toInt ≤ 255 ∧ (23#5).toNat ≤ 23) ∧
    (0 ≤ (0#10).toInt ∧ (0#10).toInt ≤ 255 ∧ (0#5).toNat ≤ 23) := by decide

theorem witness_PackRejectsWhatDoesNotFit :
    (0x3FF#10).toInt < 0 ∧ 255 < (256#10).toInt ∧ 23 < (24#5).toNat := by decide

theorem witness_ConvertDeliversTheOutcome :
    (∃ t : Text, t.length ≤ Config.textMax) ∧ ∃ t : Text, Config.textMax < t.length :=
  ⟨⟨[], Nat.zero_le _⟩, List.replicate (Config.textMax + 1) 0x30#8, by simp⟩

theorem witness_ConvertClosedForm :
    (numMinusHalf.Grammar ∧ numVal numMinusHalf.int < 2 ^ 64) ∧
    (numWidest.Grammar ∧ numVal numWidest.int < 2 ^ 64) := witness_ParseOfANumeralGivesItsValues

theorem witness_ConvertErrorKinds :
    convert [] = .error .parseError ∧ Malformed [] ∧ convert txtWide = .error .rangeError ∧
    (numTooWide.Grammar ∧ numTooWide.text = txtWide ∧ 2 ^ 64 ≤ numVal numTooWide.int) :=
  ⟨by decide, witness_ParseOfAMalformedTextRaises, by decide, grammar_numTooWide, by decide, by decide⟩

theorem witness_ConvertOutputPatterns :
    (numMinusHalf.Grammar ∧ convert numMinusHalf.text = .ok 0xBF000000#32) ∧
    (numWidest.Grammar ∧ convert numWidest.text = .ok 0x5F7FFFFF#32) :=
  ⟨⟨grammar_numMinusHalf, by decide⟩, grammar_numWidest, by decide⟩

theorem witness_ConvertTruncatesTowardZero :
    (numMinusHalf.Grammar ∧ numVal numMinusHalf.int < 2 ^ 64 ∧ numVal numMinusHalf.int = 0) ∧
    (numWidest.Grammar ∧ numVal numWidest.int < 2 ^ 64 ∧ 1 ≤ numVal numWidest.int) :=
  ⟨⟨grammar_numMinusHalf, by decide, by decide⟩, grammar_numWidest, by decide, by decide⟩

/-- `"-0.5"` and `"-00.50"`. -/
theorem witness_ConvertDependsOnTheValue :
    numMinusHalf.Grammar ∧ (Numeral.mk true [0x30#8, 0x30#8] true [0x35#8, 0x30#8]).Grammar ∧
    numMinusHalf.magnitude = (Numeral.mk true [0x30#8, 0x30#8] true [0x35#8, 0x30#8]).magnitude := by
  refine ⟨grammar_numMinusHalf, ?_, ?_⟩
  · unfold Numeral.Grammar IsDigitCode; decide
  · norm_num [Numeral.magnitude, numMinusHalf, numVal]

theorem witness_StartBeginsATransaction :
    State.reset.busy = some false ∧ ([] : Text).length ≤ Config.textMax := ⟨rfl, Nat.zero_le _⟩

theorem witness_StartIsRefusedWhenNotEnabled :
    (inFlight txt5p5).busy = some true ∧ State.reset.busy = some false ∧
    Config.textMax < (List.replicate (Config.textMax + 1) 0x30#8).length := ⟨rfl, rfl, by simp⟩

/-- Idle, and for each outcome a text in the buffer that has it. -/
theorem witness_CompletePublishesTheConversion :
    State.reset.busy = some false ∧ ((inFlight txt5p5).busy = some true ∧ (inFlight txt5p5).len = some 3 ∧
      (∀ i, i < 3 → Memory.read (inFlight txt5p5).text i = txt5p5[i]?) ∧
      convert txt5p5 = .ok 0x40B00000#32) ∧
    ((inFlight []).busy = some true ∧ (inFlight []).len = some 0 ∧ convert [] = .error .parseError) ∧
    ((inFlight txtWide).busy = some true ∧ (inFlight txtWide).len = some 20 ∧
      (∀ i, i < 20 → Memory.read (inFlight txtWide).text i = txtWide[i]?) ∧
      convert txtWide = .error .rangeError) := by decide

theorem witness_ReadReturnsTheResponse :
    ((answered txt5p5 .ok (some 0x40B00000#32)).rspValid = some true ∧
      (answered txt5p5 .ok (some 0x40B00000#32)).status = some .ok ∧
      (answered txt5p5 .ok (some 0x40B00000#32)).p = some 0x40B00000#32) ∧
    ((answered txtDots .parseError none).rspValid = some true ∧
      (answered txtDots .parseError none).status = some .parseError) ∧
    ((answered txtWide .rangeError none).rspValid = some true ∧
      (answered txtWide .rangeError none).status = some .rangeError) := by decide

theorem witness_ReadIsRefusedWithoutAResponse : State.reset.rspValid = some false := rfl

theorem witness_BeforeResetOnlyResetRuns :
    State.powerOn.busy = none ∧ State.powerOn.rspValid = none := ⟨rfl, rfl⟩

theorem witness_TransactionDeliversTheConversion :
    State.reset.busy = some false ∧ ([] : Text).length ≤ Config.textMax := ⟨rfl, Nat.zero_le _⟩

/-- A text as long as the buffer, whatever `TEXT_MAX` is: `"00…0"`. -/
theorem witness_TransactionDeliversTheConversion_full :
    (answered txtDots .parseError none).busy = some false ∧
    (List.replicate Config.textMax 0x30#8).length ≤ Config.textMax := ⟨rfl, by simp⟩

/-- With a text of one character where the buffer has a cell, and with the empty text always. -/
theorem witness_ResetAbandonsTheTransaction :
    ((inFlight []).busy = some true ∧ (inFlight []).request = some [] ∧
      ([] : Text).length ≤ Config.textMax) ∧
    ((inFlight [0x35#8]).busy = some true ∧ (inFlight [0x35#8]).request = some [0x35#8]) :=
  ⟨⟨rfl, rfl, Nat.zero_le _⟩, by decide, by decide⟩

theorem witness_ErrorsLeaveTheBlockReady :
    (inFlight txtDots).busy = some true ∧ (inFlight txtDots).request = some txtDots ∧
    ([] : Text).length ≤ Config.textMax := ⟨by decide, by decide, Nat.zero_le _⟩

/-- The invariant, with the empty text in flight. -/
theorem inv_inFlight_empty : (inFlight []).Inv where
  textWf := rfl
  textInRange := by simp [inFlight, Memory.writeRange]
  bothOrNeither := by decide
  notBoth := by decide
  requestHeld := fun _ => ⟨[], rfl, Nat.zero_le _⟩
  noResponse := fun _ => ⟨rfl, rfl⟩
  responseOf := by intro h; exact absurd h (by decide)

theorem witness_EveryStartedTransactionCompletes :
    (inFlight []).Inv ∧ (inFlight []).busy = some true ∧ (inFlight []).script = [] :=
  ⟨inv_inFlight_empty, rfl, rfl⟩

/-- The step here is COMPLETE, taken by the block itself. -/
theorem witness_StepKeepsTheProtocolInvariant :
    (inFlight []).Inv ∧ step (inFlight []) = .next (answered [] .parseError none) :=
  ⟨inv_inFlight_empty, rfl⟩

theorem witness_NoFaultUnderTheInvariant : (inFlight []).Inv := inv_inFlight_empty

theorem witness_OtherRowsLeaveTheInterface :
    writesInterface .read = false ∧
    (nextOf (exec .read (answered txt5p5 .ok (some 0x40B00000#32)))).isSome = true := by decide

theorem witness_PortsKeepNothingFromEarlierSteps :
    ((nextOf (exec (.normRange 127#10) State.reset)).isSome = true ∧
      (nextOf (exec (.normRange 127#10) (inFlight txt5p5))).isSome = true) ∧
    (drivesPorts .read = false ∧
      (nextOf (exec .read (answered txtDots .parseError none))).isSome = true) ∧
    (State.reset.script = [] ∧ (nextOf (step State.reset)).isSome = true) := by decide

theorem witness_OnlyCompleteWritesTheResponse :
    Instr.read ≠ .complete ∧ (answered txtDots .parseError none).rspValid = some true ∧
    (nextOf (exec .read (answered txtDots .parseError none))).map (·.rspValid) = some (some true) := by
  decide

theorem witness_TextIsStableWhileBusy :
    (inFlight txt5p5).busy = some true ∧ Instr.complete ≠ .reset ∧
    (nextOf (exec .complete (inFlight txt5p5))).isSome = true := by decide

theorem witness_TextCellWriteThenRead :
    Memory.wf [] = true ∧ Memory.wf [(0, 0x35#8), (2, 0x35#8)] = true ∧ (1 : Nat) ≠ 2 := by decide

end Sys2Proof.Tests
end

section
/-! The frame of the rows that are not a step of the transaction protocol (00_scope.md R16, 44_convert.md R169):
what such a row can write at all, and from it that the interface state is left alone. -/

namespace Sys2Proof.Machine

/-- `exec_cases` for the rows other than START, COMPLETE and RESET, with the three fields they may write named
together. -/
theorem exec_next_of_not_writesInterface {i : Instr} {s t : State} (hi : writesInterface i = false)
    (h : exec i s = .next t) : ∃ o x y, t = { s with ports := o, scan := x, host := y } := by
  obtain ⟨-, ⟨-, o, rfl⟩ | ⟨-, ⟨x, rfl⟩ | ⟨y, rfl⟩⟩⟩ | ⟨x, rfl, -⟩ | ⟨x, rfl, -⟩ | ⟨rfl, -⟩ := exec_cases h
  case inl.inl => exact ⟨o, s.scan, s.host, rfl⟩
  case inl.inr.inl => exact ⟨{}, x, s.host, rfl⟩
  case inl.inr.inr => exact ⟨{}, s.scan, y, rfl⟩
  -- START, COMPLETE and RESET write the interface, against `hi`.
  all_goals cases hi

/-- Settles O53: none of the interface's fields is among the three that such a row may write. -/
theorem otherRowsLeaveTheInterface : Obligations.OtherRowsLeaveTheInterface := by
  intro i s t hi h
  obtain ⟨o, x, y, rfl⟩ := exec_next_of_not_writesInterface hi h
  exact ⟨rfl, rfl, rfl, rfl, rfl, rfl, rfl⟩

end Sys2Proof.Machine
end

section
/-! What a step runs (10_state.md R20): the command at the front of the schedule (log entry 1), and a table word
that was put there (log entries 3, 4). -/

namespace Sys2Proof.Machine

/-- The step rule for a schedule that is not empty and whose first command decodes. -/
theorem step_eq_exec_pop {s : State} {c : Command} {rest : List Command} {i : Instr}
    (hs : s.script = c :: rest) (hc : decode c = .ok i) : step s = exec i s.pop := by
  simp only [step, hs, hc]

theorem State.pop_eq {s : State} {c : Command} {rest : List Command} (hs : s.script = c :: rest) :
    s.pop = { s with script := rest } := by
  simp only [State.pop, hs, List.tail_cons]

theorem decodeTableWord_eq_some {nbits w : Nat} {i : Instr} :
    decodeTableWord nbits w = some i ↔ decode (tableCommand nbits w) = .ok i := by
  unfold decodeTableWord
  cases decode (tableCommand nbits w) <;> simp

/-- Settles O6: the step rule, with the state after the command is taken off written out. -/
theorem stepRunsTheDecodedCommand : Obligations.StepRunsTheDecodedCommand := by
  intro s c rest i hs hc
  rw [step_eq_exec_pop hs hc, State.pop_eq hs]

/-- Settles O7: the word is the front of the schedule, and taking it off gives the state back. -/
theorem stepRunsTheTableWord : Obligations.StepRunsTheTableWord := by
  intro s nbits w i h
  have hc : decode (tableCommand nbits w) = .ok i := decodeTableWord_eq_some.mp h
  have hs : (s.withFetchWord nbits w).script = tableCommand nbits w :: s.script := rfl
  calc step (s.withFetchWord nbits w)
      = exec i (s.withFetchWord nbits w).pop := step_eq_exec_pop hs hc
    _ = exec i s := congrArg (exec i) (State.pop_push s _)

end Sys2Proof.Machine
end

section
/-! The ports are no storage (10_state.md R32, log entry 8): a row with ports of its own answers in the same way
in every state, and after the other rows the ports are empty. -/

namespace Sys2Proof.Machine

/-- An operation used alone reads only its operands (00_scope.md R16), so what it drives, or why it is refused,
is the same in every state. -/
theorem exec_of_drivesPorts {i : Instr} (hi : drivesPorts i = true) :
    (∃ o, ∀ s, exec i s = .next (s.drive o)) ∨ (∃ r, ∀ s, exec i s = .refused r) := by
  cases i
  -- One effect, on every operand.
  case parseSign | parseSplit | parseNeg | int2bin | normZero | normOne => exact .inl ⟨_, fun _ => rfl⟩
  -- A value or a raise, both of them on the ports.
  case parse x =>
    simp only [exec, execParse]
    cases parse x <;> exact .inl ⟨_, fun _ => rfl⟩
  case parseInt x =>
    simp only [exec, execParseInt]
    cases parseInt x <;> exact .inl ⟨_, fun _ => rfl⟩
  case parseFrac x =>
    simp only [exec, execParseFrac]
    cases parseFrac x <;> exact .inl ⟨_, fun _ => rfl⟩
  case normalize n fb =>
    simp only [exec, execNormalize]
    cases normalize n.toNat (seq fb) <;> exact .inl ⟨_, fun _ => rfl⟩
  case normRange b =>
    simp only [exec, execNormRange]
    cases normRange (bexpValue b) <;> exact .inl ⟨_, fun _ => rfl⟩
  case pack sg m l b =>
    simp only [exec, execPack]
    cases pack sg (seq m) l.toNat (bexpValue b) <;> exact .inl ⟨_, fun _ => rfl⟩
  -- Refused outside the domain of the operands.
  case frac2bin f k =>
    by_cases hd : f < 10 ^ k
    · exact .inl ⟨_, fun _ => if_pos hd⟩
    · exact .inr ⟨_, fun _ => if_neg hd⟩
  case normFrac fb =>
    by_cases hd : true ∈ seq fb
    · exact .inl ⟨_, fun _ => if_pos hd⟩
    · exact .inr ⟨_, fun _ => if_neg hd⟩
  case normInt n fb =>
    by_cases hd : 2 ≤ n.toNat
    · exact .inl ⟨_, fun _ => if_pos hd⟩
    · exact .inr ⟨_, fun _ => if_neg hd⟩
  case convert x =>
    by_cases hd : x.length ≤ Config.textMax
    · exact .inl ⟨_, fun _ => if_pos hd⟩
    · exact .inr ⟨_, fun _ => if_neg hd⟩
  all_goals cases hi

/-- What a row with ports of its own left on them, it drives in every other state too. -/
theorem exec_next_drive_ports {i : Instr} {s t : State} (hi : drivesPorts i = true) (h : exec i s = .next t)
    (s' : State) : exec i s' = .next (s'.drive t.ports) := by
  obtain ⟨o, ho⟩ | ⟨r, hr⟩ := exec_of_drivesPorts hi
  · cases (ho s).symm.trans h
    exact ho s'
  · cases (hr s).symm.trans h

theorem ports_eq_empty_of_not_drivesPorts {i : Instr} {s t : State} (hi : drivesPorts i = false)
    (h : exec i s = .next t) : t.ports = {} := by
  obtain ⟨-, ⟨hd, -⟩ | ⟨-, ⟨x, rfl⟩ | ⟨x, rfl⟩⟩⟩ | ⟨x, -, -, -, rfl⟩ | ⟨x, -, -, -, rfl⟩ | ⟨-, rfl⟩ :=
    exec_cases h
  case inl.inl => cases hi.symm.trans hd
  all_goals rfl

theorem ports_eq_of_exec_next {i : Instr} {s s' t t' : State} (h : exec i s = .next t)
    (h' : exec i s' = .next t') : t.ports = t'.ports := by
  cases hi : drivesPorts i
  · rw [ports_eq_empty_of_not_drivesPorts hi h, ports_eq_empty_of_not_drivesPorts hi h']
  · cases (exec_next_drive_ports hi h s').symm.trans h'
    rfl

theorem ports_eq_empty_of_step_unscheduled {s t : State} (hs : s.script = []) (h : step s = .next t) :
    t.ports = {} := by
  obtain ⟨c, rest, i, hc, -⟩ | ⟨-, -, hx⟩ | ⟨-, -, rfl⟩ := step_cases h
  · cases hs.symm.trans hc
  · exact ports_eq_empty_of_not_drivesPorts rfl hx
  · rfl

/-- Settles O54: a row with ports of its own drives the same outputs in every state, and whatever else runs empties
them. -/
theorem portsKeepNothingFromEarlierSteps : Obligations.PortsKeepNothingFromEarlierSteps :=
  ⟨fun _ _ _ _ _ => ports_eq_of_exec_next, fun _ _ _ => ports_eq_empty_of_not_drivesPorts,
    fun _ _ => ports_eq_empty_of_step_unscheduled⟩

end Sys2Proof.Machine
end

section
/-! Which rows write the response (10_state.md R23, 44_convert.md R166). -/

namespace Sys2Proof.Machine

/-- Settles O55: START and RESET take the response away, COMPLETE is shut out, and the other rows leave the
interface as it was. -/
theorem onlyCompleteWritesTheResponse : Obligations.OnlyCompleteWritesTheResponse := by
  intro i s t hi h
  obtain ⟨hw, -⟩ | ⟨x, -, -, -, rfl⟩ | ⟨x, rfl, -⟩ | ⟨-, rfl⟩ := exec_cases h
  case inl =>
    obtain ⟨-, -, -, hv, hst, hp, -⟩ := otherRowsLeaveTheInterface i s t hw h
    exact ⟨.inl hst, .inl hp, fun ht => hv ▸ ht⟩
  case inr.inl => exact ⟨.inr rfl, .inr rfl, fun ht => by simp at ht⟩
  case inr.inr.inl => exact absurd rfl hi
  case inr.inr.inr => exact ⟨.inr rfl, .inr rfl, fun ht => by simp [State.reset] at ht⟩

end Sys2Proof.Machine
end

section
/-! One cell of the text buffer written and read back (20_memory.md R51). -/

namespace Sys2Proof.Machine

/-- Settles O57: the three laws of one write. Only the first needs the canonical form; the two laws of reading
hold of every buffer, since `write` puts its entry before any older one of the same cell. -/
theorem textCellWriteThenRead : Obligations.TextCellWriteThenRead := fun m i c hm =>
  ⟨Memory.wf_write m i c hm, Memory.read_write_self m i c, fun _ hj => Memory.read_write_other m c hj⟩

end Sys2Proof.Machine
end

section
/-! Decode and encode agree (30_encoding.md R88, R89, log entry 2). For each decoder of operands one lemma says
which bytes it takes and to what. -/

namespace Sys2Proof

/-! ### Operands side by side -/

theorem take_drop_eq_iff {bs as cs : List Byte} {n : Nat} (h : as.length = n) :
    bs.take n = as ∧ bs.drop n = cs ↔ bs = as ++ cs := by
  constructor
  · rintro ⟨rfl, rfl⟩
    exact (List.take_append_drop n bs).symm
  · rintro rfl
    exact ⟨List.take_left' h, List.drop_left' h⟩

@[simp] theorem length_flagBytes (b : Bool) : (flagBytes b).length = 1 := length_leBytes 1 _

/-- The two ports of the normalizer. -/
theorem portFields_eq_ok {bs : List Byte} {n : BitVec 64} {fb : BitVec 23} :
    decodeField 8 64 (bs.take 8) = .ok n ∧ decodeField 3 23 (bs.drop 8) = .ok fb ↔
      bs = leBytes 8 n.toNat ++ leBytes 3 fb.toNat := by
  rw [decodeField_eq (by decide), decodeField_eq (by decide), take_drop_eq_iff (length_leBytes 8 _)]

/-- The three operands of PARSE.NEG. -/
theorem parseNegFields_eq_ok {bs : List Byte} {m : Bool} {n : BitVec 64} {f : Nat} :
    decodeFlag (bs.take 1) = .ok m ∧ decodeField 8 64 ((bs.drop 1).take 8) = .ok n ∧
      decodeNat (bs.drop 9) = .ok f ↔ bs = flagBytes m ++ leBytes 8 n.toNat ++ natBytes f := by
  rw [decodeFlag_eq, decodeField_eq (by decide), decodeNat_eq, List.append_assoc,
    ← take_drop_eq_iff (length_flagBytes m), ← take_drop_eq_iff (length_leBytes 8 _), List.drop_drop]

/-- The four operands of PACK. -/
theorem packFields_eq_ok {bs : List Byte} {s : Bool} {m : BitVec 23} {l : BitVec 5} {b : BitVec 10} :
    decodeFlag (bs.take 1) = .ok s ∧ decodeField 3 23 ((bs.drop 1).take 3) = .ok m ∧
      decodeField 1 5 ((bs.drop 4).take 1) = .ok l ∧ decodeField 2 10 (bs.drop 5) = .ok b ↔
      bs = flagBytes s ++ leBytes 3 m.toNat ++ leBytes 1 l.toNat ++ leBytes 2 b.toNat := by
  rw [decodeFlag_eq, decodeField_eq (by decide), decodeField_eq (by decide), decodeField_eq (by decide),
    List.append_assoc, List.append_assoc, ← take_drop_eq_iff (length_flagBytes s),
    ← take_drop_eq_iff (length_leBytes 3 _), ← take_drop_eq_iff (length_leBytes 1 _), List.drop_drop,
    List.drop_drop]

/-! ### Each decoder of operands -/

theorem decodeNone_eq_ok {i j : Instr} {bs : List Byte} : decodeNone j bs = .ok i ↔ i = j ∧ bs = [] := by
  unfold decodeNone
  by_cases h : bs = [] <;> simp [h, eq_comm]

theorem decodeParseNeg_eq_ok {bs : List Byte} {i : Instr} :
    decodeParseNeg bs = .ok i ↔
      ∃ m n f, i = .parseNeg m n f ∧ bs = flagBytes m ++ leBytes 8 n.toNat ++ natBytes f := by
  constructor
  · intro h
    unfold decodeParseNeg at h
    split at h
    · next m n f hm hn hf =>
      cases h
      exact ⟨m, n, f, rfl, parseNegFields_eq_ok.mp ⟨hm, hn, hf⟩⟩
    all_goals cases h
  · rintro ⟨m, n, f, rfl, hb⟩
    obtain ⟨hm, hn, hf⟩ := parseNegFields_eq_ok.mpr hb
    simp only [decodeParseNeg, hm, hn, hf]

/-- The digit characters of FRAC2BIN spell exactly the `F` below `10^K` (41_binconv.md R123). -/
theorem decodeFrac2bin_eq_ok {bs : List Byte} {i : Instr} :
    decodeFrac2bin bs = .ok i ↔ ∃ f k, f < 10 ^ k ∧ i = .frac2bin f k ∧ bs = digitChars k f := by
  constructor
  · intro h
    unfold decodeFrac2bin at h
    split at h
    · next hd =>
      cases h
      refine ⟨_, _, ?_, rfl, (digitChars_val10 bs hd).symm⟩
      simpa only [digitsOf, List.length_map] using val10_lt (digitsOf bs)
    · cases h
  · rintro ⟨f, k, hf, rfl, rfl⟩
    obtain ⟨hd, hl, hv⟩ := digitChars_spec k f hf
    rw [decodeFrac2bin, if_pos hd, hv, hl]

theorem decodeInt2bin_eq_ok {bs : List Byte} {i : Instr} :
    decodeInt2bin bs = .ok i ↔ ∃ n, i = .int2bin n ∧ bs = leBytes 8 n.toNat := by
  simp only [← decodeField_eq (show 64 ≤ 8 * 8 by decide), decodeInt2bin]
  cases decodeField 8 64 bs <;> simp [eq_comm]

theorem decodeNormalize_eq_ok {bs : List Byte} {i : Instr} :
    decodeNormalize bs = .ok i ↔
      ∃ n fb, i = .normalize n fb ∧ bs = leBytes 8 n.toNat ++ leBytes 3 fb.toNat := by
  simp only [← portFields_eq_ok, decodeNormalize]
  cases decodeField 8 64 (bs.take 8) <;> cases decodeField 3 23 (bs.drop 8) <;> simp [eq_comm]

theorem decodeNormPorts_eq_ok {bs : List Byte} {i : Instr} :
    decodeNormPorts bs = .ok i ↔
      ∃ n fb, i = normCase n fb ∧ bs = leBytes 8 n.toNat ++ leBytes 3 fb.toNat := by
  simp only [← portFields_eq_ok, decodeNormPorts]
  cases decodeField 8 64 (bs.take 8) <;> cases decodeField 3 23 (bs.drop 8) <;> simp [eq_comm]

theorem decodeNormRange_eq_ok {bs : List Byte} {i : Instr} :
    decodeNormRange bs = .ok i ↔ ∃ b, i = .normRange b ∧ bs = leBytes 2 b.toNat := by
  simp only [← decodeField_eq (show 10 ≤ 8 * 2 by decide), decodeNormRange]
  cases decodeField 2 10 bs <;> simp [eq_comm]

theorem decodePack_eq_ok {bs : List Byte} {i : Instr} :
    decodePack bs = .ok i ↔ ∃ s m l b, i = .pack s m l b ∧
      bs = flagBytes s ++ leBytes 3 m.toNat ++ leBytes 1 l.toNat ++ leBytes 2 b.toNat := by
  constructor
  · intro h
    unfold decodePack at h
    split at h
    · next s m l b hs hm hl hb =>
      cases h
      exact ⟨s, m, l, b, rfl, packFields_eq_ok.mp ⟨hs, hm, hl, hb⟩⟩
    all_goals cases h
  · rintro ⟨s, m, l, b, rfl, h⟩
    obtain ⟨hs, hm, hl, hb⟩ := packFields_eq_ok.mpr h
    simp only [decodePack, hs, hm, hl, hb]

theorem decodeStatus_eq_ok {bs : List Byte} {i : Instr} :
    decodeStatus bs = .ok i ↔ ∃ c, i = statusRow c ∧ bs = leBytes 1 c.toNat := by
  simp only [← decodeField_eq (show 2 ≤ 8 * 1 by decide), decodeStatus]
  cases decodeField 1 2 bs <;> simp [eq_comm]

theorem decodeWord_eq_ok {bs : List Byte} {i : Instr} :
    decodeWord bs = .ok i ↔ ∃ w, i = f32Row w ∧ bs = leBytes 4 w.toNat := by
  simp only [← decodeField_eq (show 32 ≤ 8 * 4 by decide), decodeWord]
  cases decodeField 4 32 bs <;> simp [eq_comm]

theorem decodeChar8_eq_ok {bs : List Byte} {i : Instr} :
    decodeChar8 bs = .ok i ↔ ∃ c, i = decodeChar c ∧ bs = [c] := by
  obtain _ | ⟨c, _ | ⟨d, bs⟩⟩ := bs <;> simp [decodeChar8, eq_comm]

end Sys2Proof
end

section
/-! Whole commands: what decodes is the encoding of what it decodes to, and every instruction in its row's domain is
read back from its encoding. -/

namespace Sys2Proof

open Machine

theorem opCommand_toNat (sel : Byte) (bs : List Byte) : opCommand sel.toNat bs = ⟨.op, sel :: bs⟩ := by
  simp only [opCommand, BitVec.ofNat_toNat, BitVec.setWidth_eq]

/-- The ports select the case by their values (30_encoding.md R89). -/
theorem decode_portsCommand (n : BitVec 64) (fb : BitVec 23) :
    decode (portsCommand n fb) = .ok (normCase n fb) := by
  show decodeNormPorts (leBytes 8 n.toNat ++ leBytes 3 fb.toNat) = _
  exact decodeNormPorts_eq_ok.mpr ⟨n, fb, rfl, rfl⟩

theorem encode_normCase (n : BitVec 64) (fb : BitVec 23) :
    (normCase n fb).wf = true ∧ encode (normCase n fb) = portsCommand n fb := by
  obtain ⟨hn, hf, e⟩ | ⟨hn, hf, e⟩ | ⟨hn, e⟩ | ⟨hn, e⟩ := normCase_cases n fb
  all_goals rw [e]
  case inl =>
    obtain rfl : n = 0#64 := BitVec.eq_of_toNat_eq hn
    exact ⟨rfl, by rw [hf]; rfl⟩
  case inr.inl =>
    obtain rfl : n = 0#64 := BitVec.eq_of_toNat_eq hn
    exact ⟨decide_eq_true hf, rfl⟩
  case inr.inr.inl =>
    obtain rfl : n = 1#64 := BitVec.eq_of_toNat_eq hn
    exact ⟨rfl, rfl⟩
  case inr.inr.inr => exact ⟨decide_eq_true hn, rfl⟩

theorem encode_f32Row (w : BitVec 32) : encode (f32Row w) = ⟨.word32, leBytes 4 w.toNat⟩ := by
  rw [f32Row, encode, f32Word_fields]

theorem statusRow_wf (c : BitVec 2) : (statusRow c).wf = true := by
  revert c
  decide

/-- What an operation's bytes decode to is encoded as those bytes under the same selector. -/
theorem encode_of_decodeOp {sel : Byte} {bs : List Byte} {i : Instr} (h : decodeOp sel bs = .ok i) :
    i.wf = true ∧ encode i = opCommand sel.toNat bs := by
  unfold decodeOp at h
  split at h
  all_goals rename_i hsel
  case h_17 => cases h -- No row has this selector.
  all_goals rw [hsel]
  -- Rows 0 to 4, CONVERT and START: the whole text is the operand.
  case h_1 | h_2 | h_3 | h_4 | h_5 | h_12 | h_13 => cases h; exact ⟨rfl, rfl⟩
  -- COMPLETE, READ and RESET: no operand.
  case h_14 | h_15 | h_16 => obtain ⟨rfl, rfl⟩ := decodeNone_eq_ok.mp h; exact ⟨rfl, rfl⟩
  -- The rows with a layout of their own.
  case h_6 => obtain ⟨m, n, f, rfl, rfl⟩ := decodeParseNeg_eq_ok.mp h; exact ⟨rfl, rfl⟩
  case h_7 =>
    obtain ⟨f, k, hf, rfl, rfl⟩ := decodeFrac2bin_eq_ok.mp h
    exact ⟨decide_eq_true hf, rfl⟩
  case h_8 => obtain ⟨n, rfl, rfl⟩ := decodeInt2bin_eq_ok.mp h; exact ⟨rfl, rfl⟩
  case h_9 => obtain ⟨n, fb, rfl, rfl⟩ := decodeNormalize_eq_ok.mp h; exact ⟨rfl, rfl⟩
  case h_10 => obtain ⟨b, rfl, rfl⟩ := decodeNormRange_eq_ok.mp h; exact ⟨rfl, rfl⟩
  case h_11 => obtain ⟨s, m, l, b, rfl, rfl⟩ := decodePack_eq_ok.mp h; exact ⟨rfl, rfl⟩

/-- What a command decodes to is in its row's domain and is encoded as that command. -/
theorem encode_of_decode {c : Command} {i : Instr} (h : decode c = .ok i) : i.wf = true ∧ encode i = c := by
  obtain ⟨fmt, bytes⟩ := c
  cases fmt
  case op =>
    obtain _ | ⟨sel, bs⟩ := bytes
    · cases h
    · rw [← opCommand_toNat]
      exact encode_of_decodeOp h
  case char8 =>
    obtain ⟨c, rfl, rfl⟩ := decodeChar8_eq_ok.mp h
    exact ⟨decodeChar_wf c, decodeChar_encode c⟩
  case status2 =>
    obtain ⟨c, rfl, rfl⟩ := decodeStatus_eq_ok.mp h
    exact ⟨statusRow_wf c, statusRow_encode c⟩
  case word32 =>
    obtain ⟨w, rfl, rfl⟩ := decodeWord_eq_ok.mp h
    exact ⟨rfl, encode_f32Row w⟩
  case normPorts =>
    obtain ⟨n, fb, rfl, rfl⟩ := decodeNormPorts_eq_ok.mp h
    exact encode_normCase n fb

theorem decodeChar_charDigit07 : ∀ d : BitVec 3, decodeChar (0b00110#5 ++ d) = .charDigit07 d := by decide

theorem decodeChar_charDigit89 : ∀ d : BitVec 1, decodeChar (0b0011100#7 ++ d) = .charDigit89 d := by decide

/-- A code that is none of the twelve stands for itself (30_encoding.md R71, R74). -/
theorem decodeChar_of_not_legal : ∀ c : Byte, c.toNat ∉ legalCodes → decodeChar c = .charIllegal c := by
  decide

theorem normCase_frac {fb : BitVec 23} (h : fb ≠ 0#23) : normCase 0#64 fb = .normFrac fb := by
  rw [normCase, if_pos rfl, if_neg h]

theorem normCase_int {n : BitVec 64} (h : 2 ≤ n.toNat) (fb : BitVec 23) : normCase n fb = .normInt n fb := by
  obtain ⟨hn, -⟩ | ⟨hn, -⟩ | ⟨hn, -⟩ | ⟨-, e⟩ := normCase_cases n fb
  case inr.inr.inr => exact e
  all_goals omega

/-- Settles O5: the ports decode to their case, and the value on `int` says which one that is. -/
theorem normalizerPortsSelectTheirCase : Obligations.NormalizerPortsSelectTheirCase := by
  intro n fb
  simp only [decode_portsCommand, Except.ok.injEq]
  refine ⟨fun hn hf => ?_, fun hn hf => ?_, fun hn => ?_, fun hn => normCase_int hn fb⟩
  · obtain rfl : n = 0#64 := BitVec.eq_of_toNat_eq hn
    obtain rfl : fb = 0#23 := BitVec.eq_of_toNat_eq hf
    rfl
  · obtain rfl : n = 0#64 := BitVec.eq_of_toNat_eq hn
    exact normCase_frac fun h0 => hf (congrArg BitVec.toNat h0)
  · obtain rfl : n = 1#64 := BitVec.eq_of_toNat_eq hn
    rfl

/-- An instruction in its row's domain is read back from its command. -/
theorem decode_encode {i : Instr} (h : i.wf = true) : decode (encode i) = .ok i := by
  cases i
  case parse | parseSign | parseSplit | parseInt | parseFrac | convert | start | complete | read | reset => rfl
  case charMinus | charDot | statusOk | statusParseError | statusRangeError | statusReserved => rfl
  case parseNeg m n f =>
    show decodeParseNeg (flagBytes m ++ leBytes 8 n.toNat ++ natBytes f) = _
    exact decodeParseNeg_eq_ok.mpr ⟨m, n, f, rfl, rfl⟩
  case frac2bin f k =>
    show decodeFrac2bin (digitChars k f) = _
    exact decodeFrac2bin_eq_ok.mpr ⟨f, k, of_decide_eq_true h, rfl, rfl⟩
  case int2bin n =>
    show decodeInt2bin (leBytes 8 n.toNat) = _
    exact decodeInt2bin_eq_ok.mpr ⟨n, rfl, rfl⟩
  case normalize n fb =>
    show decodeNormalize (leBytes 8 n.toNat ++ leBytes 3 fb.toNat) = _
    exact decodeNormalize_eq_ok.mpr ⟨n, fb, rfl, rfl⟩
  case normRange b =>
    show decodeNormRange (leBytes 2 b.toNat) = _
    exact decodeNormRange_eq_ok.mpr ⟨b, rfl, rfl⟩
  case pack s m l b =>
    show decodePack (flagBytes s ++ leBytes 3 m.toNat ++ leBytes 1 l.toNat ++ leBytes 2 b.toNat) = _
    exact decodePack_eq_ok.mpr ⟨s, m, l, b, rfl, rfl⟩
  case f32 s e m =>
    show decodeWord (leBytes 4 (f32Word s e m).toNat) = _
    exact decodeWord_eq_ok.mpr ⟨f32Word s e m, (f32Row_f32Word s e m).symm, rfl⟩
  -- The case rows: the ports of the encoding select the row.
  case normZero => rfl
  case normOne fb => exact decode_portsCommand 1#64 fb
  case normFrac fb =>
    exact (decode_portsCommand 0#64 fb).trans (congrArg _ (normCase_frac (of_decide_eq_true h)))
  case normInt n fb => exact (decode_portsCommand n fb).trans (congrArg _ (normCase_int (of_decide_eq_true h) fb))
  -- The character rows.
  case charDigit07 d => exact congrArg Except.ok (decodeChar_charDigit07 d)
  case charDigit89 d => exact congrArg Except.ok (decodeChar_charDigit89 d)
  case charIllegal c => exact congrArg Except.ok (decodeChar_of_not_legal c (of_decide_eq_true h))

/-- Settles O1: `decode_encode`, which goes through the rows by the lemma of each decoder of operands. -/
theorem decodeOfEncodeIsIdentity : Obligations.DecodeOfEncodeIsIdentity := fun _ => decode_encode

/-- Settles O2: `encode_of_decode`, which goes through the formats by the same lemmas read the other way. -/
theorem decodableCommandsAreEncodings : Obligations.DecodableCommandsAreEncodings := fun _ _ => encode_of_decode

/-- Settles O3, by running the decoder on the seven words. -/
theorem sampleWordsDecode : Obligations.SampleWordsDecode := by
  unfold Obligations.SampleWordsDecode
  decide

end Sys2Proof
end

section
/-! The words of the formats: character codes (30_encoding.md R71), status codes (R85), result words (R80, R83). -/

namespace Sys2Proof

open Machine

/-- Settles O4, by running the class on all 256 codes. -/
theorem characterCodesHaveTheirClass : Obligations.CharacterCodesHaveTheirClass := by
  unfold Obligations.CharacterCodesHaveTheirClass
  decide

/-- Settles O58: each row's one effect, and each code decoded. -/
theorem statusCodesAsTheHostReadsThem : Obligations.StatusCodesAsTheHostReadsThem := fun _ =>
  ⟨rfl, rfl, rfl, rfl, rfl, rfl, rfl, rfl⟩

/-- The bits of a result word, the most significant first, are those of its fields in order (30_encoding.md R80). -/
theorem getMsbD_f32Word (sign : Bool) (e : BitVec 8) (m : BitVec 23) (i : Nat) :
    (f32Word sign e m).getMsbD i =
      if 9 ≤ i then m.getMsbD (i - 9)
      else if 1 ≤ i then e.getMsbD (i - 1) else (BitVec.ofBool sign).getMsbD i := by
  show ((BitVec.ofBool sign ++ e : BitVec (1 + 8)) ++ m : BitVec (1 + 8 + 23)).getMsbD i = _
  rw [BitVec.getMsbD_append, BitVec.getMsbD_append]

/-- Settles O59: the word is `f32Word`, read bit by bit and as a number. -/
theorem resultWordLayout : Obligations.ResultWordLayout := by
  intro sign e m s
  refine ⟨f32Word sign e m, rfl, ?sign, fun j hj => ?exponent, fun j hj => ?mantissa, fun i hi => ?bit,
    toNat_f32Word sign e m⟩
  all_goals rw [position]
  case sign =>
    rw [getMsbD_f32Word, if_neg (by decide), if_neg (by decide)]
    cases sign <;> rfl
  case exponent => rw [getMsbD_f32Word, if_neg (by omega), if_pos (by omega), Nat.add_sub_cancel_left]
  case mantissa => rw [getMsbD_f32Word, if_pos (by omega), Nat.add_sub_cancel_left]
  case bit => rw [BitVec.getMsbD, decide_eq_true hi, Bool.true_and]

end Sys2Proof
end

section
/-! Texts: what PARSE makes of the ones outside the grammar (30_encoding.md R72), and reading a text one character
row after another (R73, R74, log entry 10). -/

namespace Sys2Proof.Machine

theorem parse_of_malformed {t : Text} (h : Malformed t) : parse t = .error .parseError := by
  obtain ⟨n, hn, ht⟩ | ⟨-, hp⟩ := parse_cases t
  · exact absurd ht (h n hn)
  · exact hp

/-- Settles O15: the raise is PARSE's one outcome outside the grammar. -/
theorem parseOfAMalformedTextRaises : Obligations.ParseOfAMalformedTextRaises := by
  intro t s h
  simp only [exec, execParse, parse_of_malformed h, State.drive]

/-! ### One character row -/

theorem charClass_of_isDigitCode {c : Byte} (h : IsDigitCode c) : charClass c = .digit (dval c) := by
  obtain ⟨-, -, hdigit, -⟩ := characterCodesHaveTheirClass c
  exact (hdigit _).mpr ⟨h.1, h.2, dval_digit c ((isDigit_iff_code c).mpr h)⟩

theorem charClass_of_not_legal {c : Byte} (h : c.toNat ∉ legalCodes) : charClass c = .illegal := by
  rw [charClass, decodeChar_of_not_legal c h]

theorem decodeChar_cases (c : Byte) :
    decodeChar c = .charMinus ∨ decodeChar c = .charDot ∨ (∃ d, decodeChar c = .charDigit07 d) ∨
      (∃ d, decodeChar c = .charDigit89 d) ∨ decodeChar c = .charIllegal c := by
  unfold decodeChar
  split_ifs <;> simp

/-- The row of a code takes a character of the code's class. -/
theorem exec_decodeChar (c : Byte) (s : State) : exec (decodeChar c) s = .next (s.scanChar (charClass c)) := by
  obtain h | h | ⟨d, h⟩ | ⟨d, h⟩ | h := decodeChar_cases c
  case inr.inr.inr.inr =>
    have hcl : charClass c = .illegal := by rw [charClass, h]
    rw [h, hcl]
    exact if_pos hcl
  all_goals rw [charClass, h]; rfl

theorem State.scanChar_of_parseError {s : State} (h : s.scan = .parseError) (c : CharClass) :
    s.scanChar c = { s with ports := {} } := by
  rw [State.scanChar, h, Scan.char, ← h]

theorem digit07_val : ∀ d : BitVec 3, (digit07 d).val = d.toNat := by decide

theorem digit89_val : ∀ d : BitVec 1, (digit89 d).val = 8 + d.toNat := by decide

@[simp] theorem Scan.char_illegal (sc : Scan) : sc.char .illegal = .parseError := by cases sc <;> rfl

/-- Settles O18: each row takes a character of its class, and `Scan.char` says what becomes of one in its place. -/
theorem characterRowsInTheirPlace : Obligations.CharacterRowsInTheirPlace := by
  intro s
  refine ⟨fun h => ?stays, fun c hc => ?illegal, fun r h => ?taken⟩
  case stays =>
    have stays (c : CharClass) : (.next (s.scanChar c) : Host.Outcome State Fault Refusal) =
        .next { s with ports := {} } := by rw [State.scanChar_of_parseError h]
    exact ⟨stays _, stays _, fun _ => stays _, fun _ => stays _⟩
  case illegal =>
    simp only [exec, execCharIllegal, if_pos (charClass_of_not_legal hc), State.scanChar, Scan.char_illegal]
  case taken =>
    have taken (c : CharClass) : (.next (s.scanChar c) : Host.Outcome State Fault Refusal) =
        .next { s with ports := {}, scan := Scan.char (.reading r) c } := by rw [State.scanChar, h]
    exact ⟨taken .minus, taken .dot, fun d => ⟨digit07 d, digit07_val d, taken _⟩,
      fun d => ⟨digit89 d, digit89_val d, taken _⟩⟩

/-! ### A whole text -/

/-- The context of the character decoder after the characters of a text. -/
def Scan.text (sc : Scan) (t : Text) : Scan :=
  t.foldl (fun sc c => sc.char (charClass c)) sc

@[simp] theorem Scan.text_nil (sc : Scan) : sc.text [] = sc := rfl

@[simp] theorem Scan.text_cons (sc : Scan) (c : Byte) (t : Text) :
    sc.text (c :: t) = (sc.char (charClass c)).text t := rfl

theorem Scan.text_append (sc : Scan) (t u : Text) : sc.text (t ++ u) = (sc.text t).text u :=
  List.foldl_append

/-- The rows of a text change the context and clear the ports, and nothing else. -/
theorem runAll_map_decodeChar (t : Text) (s : State) :
    runAll (t.map decodeChar) s =
      .next { s with scan := s.scan.text t, ports := if t = [] then s.ports else {} } := by
  induction t generalizing s with
  | nil => rfl
  | cons c t ih => simp [runAll, exec_decodeChar, ih, State.scanChar]

/-- Digits are taken into the part they stand in. -/
theorem Scan.text_digits {r : Scanned} {s : Text} (h : ∀ c ∈ s, IsDigitCode c) :
    Scan.text (.reading r) s = .reading { r with
      pos := r.pos + s.length
      ip := if r.hasDot then r.ip else r.ip ++ digitsOf s
      fp := if r.hasDot then r.fp ++ digitsOf s else r.fp } := by
  induction s generalizing r with
  | nil => simp [digitsOf]
  | cons c s ih =>
    obtain ⟨hc, hs⟩ := List.forall_mem_cons.mp h
    rw [Scan.text_cons, charClass_of_isDigitCode hc, Scan.char]
    cases hd : r.hasDot <;> simp [ih hs, digitsOf, Nat.add_assoc, Nat.add_comm 1]

/-- The grammar without its demand for an integer digit: what can be read without an error so far. -/
def Numeral.Readable (n : Numeral) : Prop :=
  (∀ c ∈ n.int, IsDigitCode c) ∧ (∀ c ∈ n.frac, IsDigitCode c) ∧ (n.dot = false → n.frac = [])

theorem Numeral.grammar_iff (n : Numeral) : n.Grammar ↔ n.int ≠ [] ∧ n.Readable := Iff.rfl

/-- The context after a text of these parts. -/
def Numeral.scanned (n : Numeral) : Scanned where
  pos := n.text.length
  minus := n.minus
  hasDot := n.dot
  ip := digitsOf n.int
  fp := digitsOf n.frac

theorem Numeral.scan_text {n : Numeral} (h : n.Readable) : Scan.text (.reading {}) n.text = .reading n.scanned := by
  obtain ⟨m, ip, d, fp⟩ := n
  obtain ⟨hi, hf, hd⟩ := h
  have hm : Scan.text (.reading {}) (if m then [0x2D#8] else []) = .reading { pos := m.toNat, minus := m } := by
    cases m <;> rfl
  have hdot : charClass 0x2E#8 = .dot := rfl
  rw [Numeral.text, Scan.text_append, Scan.text_append, hm, Scan.text_digits hi]
  cases d
  case false =>
    obtain rfl : fp = [] := hd rfl
    cases m <;> simp [Numeral.scanned, Numeral.text, digitsOf, Nat.add_comm]
  case true =>
    simp only [if_pos, Scan.text_cons, hdot, Scan.char, Bool.false_eq_true, if_false, Scan.text_digits hf]
    cases m <;> simp [Numeral.scanned, Numeral.text] <;> omega

/-- A character that is read without an error goes on with a numeral. -/
theorem exists_readable_snoc {n : Numeral} {c : Byte} {r : Scanned} (hn : n.Readable)
    (h : Scan.char (.reading n.scanned) (charClass c) = .reading r) :
    ∃ n' : Numeral, n'.Readable ∧ n'.text = n.text ++ [c] := by
  obtain ⟨m, ip, d, fp⟩ := n
  obtain ⟨hi, hf, hd⟩ := hn
  obtain ⟨hminus, hdot, hdigit, -⟩ := characterCodesHaveTheirClass c
  cases hc : charClass c with
  | minus =>
    obtain rfl : c = 0x2D#8 := BitVec.eq_of_toNat_eq (hminus.mp hc)
    -- A sign marker is read at index 0 only, so nothing stands before it.
    have hnil : Numeral.text ⟨m, ip, d, fp⟩ = [] := by
      by_contra hne
      rw [hc, Scan.char, if_neg (by simpa [Numeral.scanned] using hne)] at h
      cases h
    exact ⟨⟨true, [], false, []⟩, by simp [Numeral.Readable], by rw [hnil]; rfl⟩
  | dot =>
    obtain rfl : c = 0x2E#8 := BitVec.eq_of_toNat_eq (hdot.mp hc)
    cases d with
    | true => rw [hc] at h; cases h
    | false =>
      obtain rfl : fp = [] := hd rfl
      exact ⟨⟨m, ip, true, []⟩, ⟨hi, hf, by simp⟩, by simp [Numeral.text]⟩
  | digit v =>
    have hv : IsDigitCode c := ⟨((hdigit v).mp hc).1, ((hdigit v).mp hc).2.1⟩
    have snoc {s : Text} (hs : ∀ x ∈ s, IsDigitCode x) : ∀ x ∈ s ++ [c], IsDigitCode x :=
      List.forall_mem_append.mpr ⟨hs, by simpa using hv⟩
    cases d with
    | true => exact ⟨⟨m, ip, true, fp ++ [c]⟩, ⟨hi, snoc hf, by simp⟩, by simp [Numeral.text]⟩
    | false =>
      obtain rfl : fp = [] := hd rfl
      exact ⟨⟨m, ip ++ [c], false, []⟩, ⟨snoc hi, hf, by simp⟩, by simp [Numeral.text]⟩
  | illegal => rw [hc] at h; cases h

/-- What is read without an error has parts. -/
theorem exists_readable_of_scan {t : Text} {r : Scanned} (h : Scan.text (.reading {}) t = .reading r) :
    ∃ n : Numeral, n.Readable ∧ n.text = t := by
  induction t using List.reverseRecOn generalizing r with
  | nil => exact ⟨⟨false, [], false, []⟩, by simp [Numeral.Readable], rfl⟩
  | append_singleton t c ih =>
    rw [Scan.text_append, Scan.text_cons, Scan.text_nil] at h
    cases hsc : Scan.text (.reading {}) t with
    | parseError => rw [hsc] at h; cases h
    | reading r' =>
      obtain ⟨n, hn, rfl⟩ := ih hsc
      rw [Numeral.scan_text hn] at h
      exact exists_readable_snoc hn h

theorem finish_scan (t : Text) : (Scan.text (.reading {}) t).finish = parse t := by
  obtain ⟨n, hn, rfl⟩ | ⟨hm, hp⟩ := parse_cases t
  · obtain ⟨h0, hr⟩ := n.grammar_iff.mp hn
    have hi : val10 (digitsOf n.int) = numVal n.int := val10_digitsOf n.int hr.1
    have hf : val10 (digitsOf n.frac) = numVal n.frac := val10_digitsOf n.frac hr.2.1
    have h0' : digitsOf n.int ≠ [] := by simpa [digitsOf] using h0
    rw [Numeral.scan_text hr, parse_numeral n hn]
    simp only [Scan.finish, Numeral.scanned, if_neg h0', hi, hf, Numeral.negative]
    simp [digitsOf]
  · rw [hp]
    cases hsc : Scan.text (.reading {}) t with
    | parseError => rfl
    | reading r =>
      obtain ⟨n, hn, rfl⟩ := exists_readable_of_scan hsc
      obtain rfl : n.scanned = r := Scan.reading.inj ((Numeral.scan_text hn).symm.trans hsc)
      have h0 : n.int = [] := by
        by_contra h0
        exact hm n ⟨h0, hn⟩ rfl
      simp [Scan.finish, Numeral.scanned, h0, digitsOf]

/-- Settles O17: the rows come to `Scan.text`, and the checks on that to PARSE. -/
theorem characterRowsReadWhatParseReads : Obligations.CharacterRowsReadWhatParseReads := by
  intro t s hs
  refine ⟨Scan.text (.reading {}) t, ?_, finish_scan t⟩
  rw [runAll_map_decodeChar, hs]

end Sys2Proof.Machine
end

section
/-! CONVERT: the outcome on every text (44_convert.md R162, 60_exceptions.md R181, R182) and the patterns it can
produce (30_encoding.md R86). -/

namespace Sys2Proof.Machine

/-! ### The outcome -/

/-- The packer raises nothing on a mantissa of 23 bits and an exponent of its field, and the word is the sum of
its fields. -/
theorem pack_full {mant : Bits} {e : Int} (sign : Bool) (hm : mant.length = 23) (h0 : 0 ≤ e) (h1 : e ≤ 255) :
    ∃ p, pack sign mant 23 e = .ok p ∧
      (vec 32 p).toNat = sign.toNat * 2 ^ 31 + e.toNat * 2 ^ 23 + val2 mant := by
  refine ⟨packPositions sign mant 23 e.toNat, ?_, ?_⟩
  · rw [pack, bexpOutOfRange_eq_false e h0 h1]
    rfl
  · rw [toNat_vec _ _ (length_packPositions sign mant hm 23 _ le_rfl),
      val2_packPositions sign mant hm 23 _ le_rfl (by omega)]
    simp

/-- FRAC2BIN, NORMALIZE and PACK raise nothing on the outputs of PARSE, and give the closed form (44_convert.md
R162). -/
theorem convertDecimal_eq_wordOf {d : Decimal} (h : d.f < 10 ^ d.k) :
    ∃ w, convertDecimal d = .ok w ∧
      w.toNat = wordOf d.sign (d.int.toNat * 2 ^ 23 + d.f * 2 ^ 23 / 10 ^ d.k) := by
  set fb := vec 23 (frac2bin d.f d.k) with hfb
  have hseq : frac2bin d.f d.k = seq fb := (seq_vec 23 _ (length_frac2bin d.f d.k)).symm
  obtain ⟨hnorm, hlo, hhi⟩ := normalize_eq d.int fb
  obtain ⟨hlen, hzero, hpos⟩ := normSelect_spec d.int fb
  obtain ⟨p, hp, hword⟩ := pack_full d.sign hlen hlo (by omega)
  refine ⟨vec 32 p, ?_, ?_⟩
  · simp only [convertDecimal, hseq, hnorm, hp]
  · rw [hword, ← toNat_vec_frac2bin d.f d.k h, ← hfb, wordOf]
    by_cases hx : d.int.toNat * 2 ^ 23 + fb.toNat = 0
    · obtain ⟨hv, he⟩ := hzero hx
      rw [if_pos hx, hv, he]
      simp
    · obtain ⟨-, he, hv⟩ := hpos _ rfl hx
      rw [if_neg hx, hv, he]
      rfl

theorem numVal_lt {s : Text} (h : ∀ c ∈ s, IsDigitCode c) : numVal s < 10 ^ s.length := by
  rw [← val10_digitsOf s h]
  simpa only [digitsOf, List.length_map] using val10_lt (digitsOf s)

/-- A numeral whose integer part fits converts to the word of its window (44_convert.md R162). -/
theorem convert_numeral_ok {n : Numeral} (h : n.Grammar) (hw : numVal n.int < 2 ^ 64) :
    ∃ w, convert n.text = .ok w ∧ w.toNat = wordOf n.negative n.window := by
  have hp := parse_numeral n h
  obtain ⟨-, -, hfrac, -⟩ := h
  rw [if_neg (by omega)] at hp
  simp only [convert, hp]
  obtain ⟨w, hc, hn⟩ := convertDecimal_eq_wordOf (d := ⟨n.minus, n.negative, BitVec.ofNat 64 (numVal n.int),
    digitsOf n.frac, n.frac.length, numVal n.frac⟩) (numVal_lt hfrac)
  refine ⟨w, hc, ?_⟩
  rw [hn, Numeral.window, toNat_ofNat64 _ hw]

theorem convert_numeral_wide {n : Numeral} (h : n.Grammar) (hw : 2 ^ 64 ≤ numVal n.int) :
    convert n.text = .error .rangeError := by
  rw [convert, parse_numeral n h, if_pos hw]

theorem convert_malformed {t : Text} (h : Malformed t) : convert t = .error .parseError := by
  rw [convert, parse_of_malformed h]

/-- Every text is outside the grammar, of it and too wide, or of it and converted. -/
theorem convert_cases (t : Text) :
    (Malformed t ∧ convert t = .error .parseError) ∨
    (∃ n : Numeral, n.Grammar ∧ n.text = t ∧ 2 ^ 64 ≤ numVal n.int ∧ convert t = .error .rangeError) ∨
    (∃ (n : Numeral) (w : BitVec 32), n.Grammar ∧ n.text = t ∧ convert t = .ok w) := by
  obtain ⟨n, hn, rfl⟩ | ⟨hm, -⟩ := parse_cases t
  · by_cases hw : 2 ^ 64 ≤ numVal n.int
    · exact .inr (.inl ⟨n, hn, rfl, hw, convert_numeral_wide hn hw⟩)
    · obtain ⟨w, hc, -⟩ := convert_numeral_ok hn (by omega)
      exact .inr (.inr ⟨n, w, hn, rfl, hc⟩)
  · exact .inl ⟨hm, convert_malformed hm⟩

/-- Settles O35: `convert_cases` leaves one outcome to each kind of text. -/
theorem convertErrorKinds : Obligations.ConvertErrorKinds := by
  intro t
  refine ⟨⟨fun h => ?_, convert_malformed⟩, fun h => ?_, ?_⟩
  · obtain ⟨hm, -⟩ | ⟨n, -, -, -, hc⟩ | ⟨n, w, -, -, hc⟩ := convert_cases t
    · exact hm
    all_goals rw [hc] at h; cases h
  · obtain ⟨-, hc⟩ | ⟨n, hn, ht, hw, -⟩ | ⟨n, w, -, -, hc⟩ := convert_cases t
    case inr.inl => exact ⟨n, hn, ht, hw⟩
    all_goals rw [hc] at h; cases h
  · rintro ⟨n, hn, rfl, hw⟩
    exact convert_numeral_wide hn hw

/-! ### The patterns -/

theorem exponentField_eq (w : BitVec 32) : exponentField w = w.toNat / 2 ^ 23 % 2 ^ 8 := by
  rw [exponentField, BitVec.extractLsb'_toNat, Nat.shiftRight_eq_div_pow]

theorem mantissaField_eq (w : BitVec 32) : mantissaField w = w.toNat % 2 ^ 23 := by
  rw [mantissaField, BitVec.extractLsb'_toNat, Nat.shiftRight_zero]

/-- The fields of a word that is the sum of three fields. -/
theorem fields_of_toNat {w : BitVec 32} {sign : Bool} {e m : Nat} (he : e < 2 ^ 8) (hm : m < 2 ^ 23)
    (h : w.toNat = sign.toNat * 2 ^ 31 + e * 2 ^ 23 + m) : exponentField w = e ∧ mantissaField w = m := by
  rw [exponentField_eq, mantissaField_eq, h]
  omega

/-- The mantissa is the number's bits after its leading 1, so it fits its field (42_normalize.md R139). -/
theorem mantissaOf_lt (x : Nat) : mantissaOf x < 2 ^ 23 := by
  have hx : x < 2 ^ (x.log2 + 1) := Nat.lt_log2_self
  unfold mantissaOf
  split
  · next hl =>
    have hpow : 2 ^ (x.log2 + 1) = 2 ^ (x.log2 - 23) * 2 ^ 24 := by
      rw [← Nat.pow_add]
      congr 1
      omega
    have : x / 2 ^ (x.log2 - 23) < 2 ^ 24 := Nat.div_lt_of_lt_mul (hpow ▸ hx)
    omega
  · next hl =>
    have hpow : 2 ^ (x.log2 + 1) * 2 ^ (23 - x.log2) = 2 ^ 24 := by
      rw [← Nat.pow_add]
      congr 1
      omega
    have : x * 2 ^ (23 - x.log2) < 2 ^ 24 :=
      hpow ▸ Nat.mul_lt_mul_of_pos_right hx (Nat.two_pow_pos _)
    omega

theorem fields_of_wordOf_zero {w : BitVec 32} {sign : Bool} (hw : w.toNat = wordOf sign 0) :
    exponentField w = 0 ∧ mantissaField w = 0 := by
  rw [wordOf, if_pos rfl] at hw
  exact fields_of_toNat (sign := sign) (by decide) (by decide) (by rw [hw, Nat.zero_mul, Nat.add_zero])

theorem fields_of_wordOf {w : BitVec 32} {sign : Bool} {x : Nat} (h0 : x ≠ 0) (hx : x < 2 ^ 87)
    (hw : w.toNat = wordOf sign x) : exponentField w = 104 + x.log2 ∧ mantissaField w = mantissaOf x := by
  have hl : x.log2 < 87 := (Nat.log2_lt h0).mpr hx
  rw [wordOf, if_neg h0] at hw
  exact fields_of_toNat (by omega) (mantissaOf_lt x) hw

/-- Below 1 the last `23 - ⌊log2 x⌋` bits of the mantissa are padding (42_normalize.md R132). -/
theorem mantissaOf_mod {x : Nat} (h : x.log2 < 23) : mantissaOf x % 2 ^ (23 - x.log2) = 0 := by
  rw [mantissaOf, if_neg (by omega)]
  exact Nat.mod_eq_zero_of_dvd (Nat.dvd_sub (Nat.dvd_mul_left _ _) (Nat.pow_dvd_pow 2 (by omega)))

/-- The fractional part of the window is below 1, in units of `2^-23`. -/
theorem window_lt {n : Numeral} (h : n.Grammar) : n.window < (numVal n.int + 1) * 2 ^ 23 := by
  obtain ⟨-, -, hfrac, -⟩ := h
  have hf : numVal n.frac * 2 ^ 23 / 10 ^ n.frac.length < 2 ^ 23 :=
    Nat.div_lt_of_lt_mul (Nat.mul_lt_mul_of_pos_right (numVal_lt hfrac) (by decide))
  rw [Numeral.window]
  omega

theorem le_window (n : Numeral) : numVal n.int * 2 ^ 23 ≤ n.window := Nat.le_add_right _ _

theorem convert_numeral_eq_ok {n : Numeral} {w : BitVec 32} (h : n.Grammar) (hc : convert n.text = .ok w) :
    numVal n.int < 2 ^ 64 ∧ w.toNat = wordOf n.negative n.window := by
  by_cases hw : 2 ^ 64 ≤ numVal n.int
  · cases (convert_numeral_wide h hw).symm.trans hc
  · obtain ⟨w', hc', hn⟩ := convert_numeral_ok h (by omega)
    cases hc'.symm.trans hc
    exact ⟨by omega, hn⟩

/-- Settles O36: the fields are those of the closed form, and the integer part says on which side of `2^23` its
window is. -/
theorem convertOutputPatterns : Obligations.ConvertOutputPatterns := by
  intro n w hn hc
  obtain ⟨hint, hw⟩ := convert_numeral_eq_ok hn hc
  have hlt := window_lt hn
  have hle := le_window n
  by_cases h0 : n.window = 0
  · rw [h0] at hw
    exact .inl (fields_of_wordOf_zero hw)
  · obtain ⟨he, hm⟩ := fields_of_wordOf h0 (by omega) hw
    rw [he, hm]
    by_cases hi : numVal n.int = 0
    · have hl : n.window.log2 < 23 := (Nat.log2_lt h0).mpr (by omega)
      have hpad : 127 - (104 + n.window.log2) = 23 - n.window.log2 := by omega
      exact .inr (.inl ⟨hi, by omega, by omega, hpad ▸ mantissaOf_mod hl⟩)
    · have hl : n.window.log2 < 87 := (Nat.log2_lt h0).mpr (by omega)
      have hl' : 23 ≤ n.window.log2 := (Nat.le_log2 h0).mpr (by omega)
      exact .inr (.inr ⟨by omega, by omega, by omega⟩)

end Sys2Proof.Machine
end

section
/-! PARSE and its parts used alone (40_parse.md R100 to R107): what each gives on every operand, and what it then
leaves in the ports (log entry 19). The model's `minusCode` and `dotCode` are the codes `0x2D` and `0x2E` that the
statements write. -/

namespace Sys2Proof.Machine

/-! ### The two checks of form, with the outcome decided by the text -/

theorem checkIntPart_of_digits {ip : Text} (h0 : ip ≠ []) (h : ∀ c ∈ ip, IsDigitCode c) :
    checkIntPart ip = .ok () := by
  obtain ⟨-, -, hok⟩ | ⟨hnil | ⟨c, hc, hnd⟩, -⟩ := checkIntPart_eq ip
  · exact hok
  · exact absurd hnil h0
  · exact absurd (h c hc) hnd

theorem checkIntPart_of_malformed {ip : Text} (h : ip = [] ∨ ∃ c ∈ ip, ¬IsDigitCode c) :
    checkIntPart ip = .error .parseError := by
  obtain ⟨hne, hd, -⟩ | ⟨-, herr⟩ := checkIntPart_eq ip
  · obtain hnil | ⟨c, hc, hnd⟩ := h
    · exact absurd hnil hne
    · exact absurd (hd c hc) hnd
  · exact herr

theorem checkFracPart_of_digits {fp : Text} (h : ∀ c ∈ fp, IsDigitCode c) : checkFracPart fp = .ok () := by
  obtain ⟨-, hok⟩ | ⟨⟨c, hc, hnd⟩, -⟩ := checkFracPart_eq fp
  · exact hok
  · exact absurd (h c hc) hnd

theorem checkFracPart_of_malformed {fp : Text} (h : ∃ c ∈ fp, ¬IsDigitCode c) :
    checkFracPart fp = .error .parseError := by
  obtain ⟨hd, -⟩ | ⟨-, herr⟩ := checkFracPart_eq fp
  · obtain ⟨c, hc, hnd⟩ := h
    exact absurd (hd c hc) hnd
  · exact herr

/-! ### The integer and the fractional part -/

theorem parseInt_of_malformed {ip : Text} (h : ip = [] ∨ ∃ c ∈ ip, ¬IsDigitCode c) :
    parseInt ip = .error .parseError := by
  rw [parseInt, checkIntPart_of_malformed h]

/-- On digits the width alone decides, and the value is exact (40_parse.md R104). -/
theorem parseInt_of_digits {ip : Text} (h0 : ip ≠ []) (h : ∀ c ∈ ip, IsDigitCode c) :
    parseInt ip =
      if 2 ^ 64 ≤ numVal ip then .error .rangeError else .ok (BitVec.ofNat 64 (numVal ip)) := by
  rw [parseInt, checkIntPart_of_digits h0 h]
  exact intValue_eq ip h

theorem parseFrac_of_malformed {fp : Text} (h : ∃ c ∈ fp, ¬IsDigitCode c) :
    parseFrac fp = .error .parseError := by
  rw [parseFrac, checkFracPart_of_malformed h]

theorem parseFrac_of_digits {fp : Text} (h : ∀ c ∈ fp, IsDigitCode c) :
    parseFrac fp = .ok ⟨digitsOf fp, fp.length, numVal fp⟩ := by
  rw [parseFrac, checkFracPart_of_digits h, fracValue, val10_digitsOf fp h]

/-! ### The rows that raise, by the outcome of their function -/

theorem exec_parseInt_error {ip : Text} {e : ErrorKind} (h : parseInt ip = .error e) (s : State) :
    exec (.parseInt ip) s = .next (s.drive { parse := { raised := some e } }) := by
  simp only [exec, execParseInt, h]

theorem exec_parseInt_ok {ip : Text} {n : BitVec 64} (h : parseInt ip = .ok n) (s : State) :
    exec (.parseInt ip) s = .next (s.drive { parse := { int := some n } }) := by
  simp only [exec, execParseInt, h]

theorem exec_parseFrac_error {fp : Text} {e : ErrorKind} (h : parseFrac fp = .error e) (s : State) :
    exec (.parseFrac fp) s = .next (s.drive { parse := { raised := some e } }) := by
  simp only [exec, execParseFrac, h]

theorem exec_parseFrac_ok {fp : Text} {fr : Fraction} (h : parseFrac fp = .ok fr) (s : State) :
    exec (.parseFrac fp) s =
      .next (s.drive { parse := { fd := some fr.fd, k := some fr.k, f := some fr.f } }) := by
  simp only [exec, execParseFrac, h]

theorem exec_parse_error {t : Text} {e : ErrorKind} (h : parse t = .error e) (s : State) :
    exec (.parse t) s = .next (s.drive { parse := { raised := some e } }) := by
  simp only [exec, execParse, h]

theorem exec_parse_ok {t : Text} {d : Decimal} (h : parse t = .ok d) (s : State) :
    exec (.parse t) s = .next (s.drive { parse :=
      { minus := some d.minus, sign := some d.sign, int := some d.int, fd := some d.fd, k := some d.k,
        f := some d.f } }) := by
  simp only [exec, execParse, h]

/-! ### The statements -/

/-- Settles O9: `parseSign` looks at the first character alone. -/
theorem parseSignStripsOneMarker : Obligations.ParseSignStripsOneMarker := by
  intro t s
  refine ⟨fun rest ht => ?_, fun ht => ?_⟩
  · have hp : parseSign t = (true, rest) := ht ▸ parseSign_minus rest
    simp only [exec, execParseSign, hp, State.drive]
  · have hp : parseSign t = (false, t) := parseSign_other t ht
    simp only [exec, execParseSign, hp, State.drive]

/-- Settles O10: the index `parseSplit` cuts at is that of the first dot, and the length of the text without one. -/
theorem parseSplitIsAtTheFirstDot : Obligations.ParseSplitIsAtTheFirstDot := by
  intro b s
  refine ⟨fun hb => ?_, fun ip fp hb hip => ?_⟩
  · have hp : parseSplit b = (b, false, []) := parseSplit_noDot b hb
    simp only [exec, execParseSplit, hp, State.drive]
  · have hp : parseSplit b = (ip, true, fp) := hb ▸ parseSplit_dot ip fp hip
    simp only [exec, execParseSplit, hp, State.drive]

/-- Settles O11: the form is checked first; on digits `parseInt_of_digits` splits at `2^64`, and below it the
64-bit word holds the value itself. -/
theorem parseIntChecksFormThenWidth : Obligations.ParseIntChecksFormThenWidth := by
  intro ip s
  refine ⟨fun hm => exec_parseInt_error (parseInt_of_malformed hm) s, fun h0 hd hw => ?_, fun h0 hd hw => ?_⟩
  · have hp := parseInt_of_digits h0 hd
    rw [if_pos hw] at hp
    exact exec_parseInt_error hp s
  · have hp := parseInt_of_digits h0 hd
    rw [if_neg (Nat.not_le_of_lt hw)] at hp
    exact ⟨_, toNat_ofNat64 _ hw, exec_parseInt_ok hp s⟩

/-- Settles O12: the typed digits are the codes less `0x30`, and their value is below `10^K`. -/
theorem parseFracKeepsTheTypedDigits : Obligations.ParseFracKeepsTheTypedDigits := fun fp s =>
  ⟨fun hm => exec_parseFrac_error (parseFrac_of_malformed hm) s, fun hd =>
    ⟨numVal_lt hd, digitsOf fp, digitsOf_codes fp hd, exec_parseFrac_ok (parseFrac_of_digits hd) s⟩⟩

/-- Settles O13: the sign driven is `parseNeg`, which is 1 just when R107 says so. -/
theorem parseNegIsTheSignOfTheValue : Obligations.ParseNegIsTheSignOfTheValue := fun minus int f _ =>
  ⟨parseNeg minus int f, parseNeg_iff minus int f, rfl⟩

/-- Settles O14: `parse_numeral` where the integer part fits. -/
theorem parseOfANumeralGivesItsValues : Obligations.ParseOfANumeralGivesItsValues := by
  intro n s hn hw
  have hp := parse_numeral n hn
  rw [if_neg (Nat.not_le_of_lt hw)] at hp
  obtain ⟨-, -, hfrac, -⟩ := hn
  exact ⟨digitsOf n.frac, digitsOf_codes n.frac hfrac, exec_parse_ok hp s⟩

/-- Settles O16: `parse_numeral` where the integer part is too wide; the form was found good before it. -/
theorem parseOfAWideIntegerRaises : Obligations.ParseOfAWideIntegerRaises := by
  intro n s hn hw
  have hp := parse_numeral n hn
  rw [if_pos hw] at hp
  exact exec_parse_error hp s

end Sys2Proof.Machine
end

section
/-! INT2BIN and FRAC2BIN used alone (41_binconv.md R120, R123, R124): the digits and their count for every integer,
the window on its domain, and that the window depends on the quotient alone. -/

namespace Sys2Proof.Machine

/-! ### INT2BIN -/

/-- The digits spell the number, the one digit of 0 included (41_binconv.md R120). -/
theorem val2_int2bin (n : Nat) : val2 (int2bin n) = n := by
  by_cases h0 : n = 0
  · rw [h0, int2bin_zero]; rfl
  · obtain ⟨hval, -, -⟩ := int2bin_spec n h0
    exact hval

/-- KW is 1 for 0 and one more than the logarithm otherwise; `Nat.log2 0` is 0, so one formula serves. -/
theorem length_int2bin (n : Nat) : (int2bin n).length = n.log2 + 1 := by
  by_cases h0 : n = 0
  · rw [h0, int2bin_zero, Nat.log2_zero]; rfl
  · obtain ⟨-, hlen, -⟩ := int2bin_spec n h0
    exact hlen

theorem log2_toNat_lt (int : BitVec 64) : int.toNat.log2 < 64 := by
  by_cases h0 : int.toNat = 0
  · rw [h0, Nat.log2_zero]; decide
  · exact (Nat.log2_lt h0).mpr int.isLt

/-- Settles O19: `int2bin` is the witness; KW is `log2(INT) + 1` for every INT, so the 64-bit word bounds it. -/
theorem int2binSpellsItsNumber : Obligations.Int2binSpellsItsNumber := by
  intro int s
  have hlen := length_int2bin int.toNat
  have hlog := log2_toNat_lt int
  refine ⟨int2bin int.toNat, rfl, val2_int2bin int.toNat, fun h0 => ?_, fun h0 => ⟨?_, hlen⟩, by omega, by omega⟩
  · rw [h0, int2bin_zero]
  · obtain ⟨-, -, hhead⟩ := int2bin_spec int.toNat h0
    exact hhead

/-! ### FRAC2BIN -/

/-- FRAC2BIN used alone drives the window, on its domain (41_binconv.md R123). -/
theorem exec_frac2bin_of_lt {f k : Nat} (h : f < 10 ^ k) (s : State) :
    exec (.frac2bin f k) s = .next (s.drive { bin := { fb := some (vec 23 (frac2bin f k)) } }) :=
  if_pos h

/-- Settles O20: the window's number is the quotient `toNat_vec_frac2bin` gives, and a quotient is cut off below. -/
theorem frac2binIsTheTruncatedWindow : Obligations.Frac2binIsTheTruncatedWindow := by
  intro f k s h
  have hv := toNat_vec_frac2bin f k h
  have hd : 0 < 10 ^ k := Nat.pow_pos (by decide)
  refine ⟨vec 23 (frac2bin f k), exec_frac2bin_of_lt h s, hv, ?_, ?_⟩
  · rw [hv]
    exact Nat.div_mul_le_self _ _
  · rw [hv, ← Nat.div_lt_iff_lt_mul hd]
    exact Nat.lt_succ_self _

/-- Dropping the low `m` places of a window leaves the window with `m` fewer places. -/
theorem div_two_pow_window (f d n m : Nat) :
    f * 2 ^ (n + m) / d / 2 ^ m = f * 2 ^ n / d := by
  rw [Nat.div_right_comm, Nat.pow_add, ← Nat.mul_assoc, Nat.mul_div_cancel _ (Nat.two_pow_pos m)]

/-- Settles O21: bit `i` of the window has weight `2^(22-i)` (`getElem?_eq_testBit`), and above that weight the
window is the one with `i + 1` places. -/
theorem frac2binAlwaysGives23Bits : Obligations.Frac2binAlwaysGives23Bits := by
  intro f k h
  refine ⟨length_frac2bin f k, fun i hi => ?_⟩
  have hplaces : i + 1 + (23 - 1 - i) = 23 := by omega
  have hwin := div_two_pow_window f (10 ^ k) (i + 1) (23 - 1 - i)
  rw [hplaces] at hwin
  rw [getElem?_eq_testBit _ i (by rwa [length_frac2bin]), length_frac2bin, val2_frac2bin f k h,
    Nat.testBit_eq_decide_div_mod_eq, hwin]

/-- Two fractions equal by cross multiplication have the same quotient. -/
theorem div_eq_div_of_cross {a b c d : Nat} (hb : 0 < b) (hd : 0 < d) (h : a * d = c * b) : a / b = c / d := by
  calc a / b = a * d / (b * d) := (Nat.mul_div_mul_right a b hd).symm
    _ = c * b / (d * b) := by rw [h, Nat.mul_comm b d]
    _ = c / d := Nat.mul_div_mul_right c d hb

/-- Equal fractions are below one together, and have the same bits. -/
theorem frac2bin_eq_of_cross {f k f' k' : Nat} (h : f < 10 ^ k) (he : f * 10 ^ k' = f' * 10 ^ k) :
    f' < 10 ^ k' ∧ frac2bin f k = frac2bin f' k' := by
  have hk : 0 < 10 ^ k := Nat.pow_pos (by decide)
  have hk' : 0 < 10 ^ k' := Nat.pow_pos (by decide)
  have h' : f' < 10 ^ k' := by
    refine Nat.lt_of_mul_lt_mul_right (a := 10 ^ k) ?_
    calc f' * 10 ^ k = f * 10 ^ k' := he.symm
      _ < 10 ^ k * 10 ^ k' := Nat.mul_lt_mul_of_pos_right h hk'
      _ = 10 ^ k' * 10 ^ k := Nat.mul_comm _ _
  refine ⟨h', val2_inj (by rw [length_frac2bin, length_frac2bin]) ?_⟩
  rw [val2_frac2bin f k h, val2_frac2bin f' k' h']
  refine div_eq_div_of_cross hk hk' ?_
  rw [Nat.mul_right_comm, he, Nat.mul_right_comm]

/-- Settles O22: the second pair lies in the domain too, and both give the same bits. -/
theorem frac2binDependsOnTheRational : Obligations.Frac2binDependsOnTheRational := by
  intro f k f' k' s h he
  obtain ⟨h', hbits⟩ := frac2bin_eq_of_cross h he
  rw [exec_frac2bin_of_lt h, exec_frac2bin_of_lt h', hbits]

end Sys2Proof.Machine
end

section
/-! NORMALIZE and its case rows used alone (42_normalize.md R130 to R142): what each row drives on the ports, the
closed form of R139 and the ranges of R138, the range check and the two's complement of the exponent port. -/

namespace Sys2Proof.Machine

/-! ### The rows as one drive of the ports -/

/-- NORMALIZE used alone never raises: it drives the ports of the selected case, found in range (R130, R138). -/
theorem exec_normalize_eq (int : BitVec 64) (fb : BitVec 23) (s : State) :
    exec (.normalize int fb) s = .next (s.drive { norm :=
      { casePorts (normSelect int.toNat (seq fb)) with rangeErr := some false } }) := by
  obtain ⟨hok, -, -⟩ := normalize_eq int fb
  show execNormalize int fb s = _
  rw [execNormalize, hok]
  rfl

theorem exec_normFrac_of_ne_zero {fb : BitVec 23} (h : fb ≠ 0#23) (s : State) :
    exec (.normFrac fb) s = .next (s.drive { norm := casePorts (normFrac (seq fb)) }) :=
  if_pos ((true_mem_seq fb).mpr h)

theorem exec_normOne_eq (fb : BitVec 23) (s : State) :
    exec (.normOne fb) s = .next (s.drive { norm := casePorts (normOne (seq fb)) }) :=
  rfl

theorem exec_normInt_of_two_le {int : BitVec 64} (h : 2 ≤ int.toNat) (fb : BitVec 23) (s : State) :
    exec (.normInt int fb) s = .next (s.drive { norm := casePorts (normInt int.toNat (seq fb)) }) :=
  if_pos h

/-- The row the ports decode to is the case `normSelect` takes on their values (R130, R131). -/
theorem exec_normCase (int : BitVec 64) (fb : BitVec 23) (s : State) :
    exec (normCase int fb) s = .next (s.drive { norm := casePorts (normSelect int.toNat (seq fb)) }) := by
  obtain ⟨hn, hf, e⟩ | ⟨hn, hf, e⟩ | ⟨hn, e⟩ | ⟨hn, e⟩ := normCase_cases int fb
  all_goals rw [e, normSelect]
  · rw [if_pos hn, if_neg (by rw [true_mem_seq]; exact not_not_intro hf)]
    rfl
  · rw [if_pos hn, if_pos ((true_mem_seq fb).mpr hf)]
    exact exec_normFrac_of_ne_zero hf s
  · rw [if_neg (by omega), if_pos hn]
    exact exec_normOne_eq fb s
  · rw [if_neg (by omega), if_neg (by omega)]
    exact exec_normInt_of_two_le hn fb s

/-! ### The cases -/

theorem ne_zero_of_getMsbD {n p : Nat} {v : BitVec n} (h : v.getMsbD p = true) : v ≠ 0#n := by
  rintro rfl
  simp at h

/-- Dropping the first `k` bits of a window and padding it on the right is the left shift. -/
theorem vec_drop_seq_rep (fb : BitVec 23) {k : Nat} (hk : k ≤ 23) :
    vec 23 ((seq fb).drop k ++ rep false k) = fb <<< k := by
  have hpow : 2 ^ 23 = 2 ^ (23 - k) * 2 ^ k := by rw [← Nat.pow_add, Nat.sub_add_cancel hk]
  apply BitVec.eq_of_toNat_eq
  rw [toNat_vec 23 _ (by simp; omega), val2_append, val2_rep_false, length_rep, val2_drop_seq,
    BitVec.toNat_shiftLeft, Nat.shiftLeft_eq, hpow, Nat.mul_mod_mul_right, Nat.add_zero]

/-- Settles O23: `idxOf_seq` finds the first 1, and what NORM.FRAC makes of the window is its left shift. -/
theorem normFracKeepsTheBitsAfterTheFirstOne : Obligations.NormFracKeepsTheBitsAfterTheFirstOne := by
  intro fb p s hp hone hzeros
  have hcase : normFrac (seq fb) = ((seq fb).drop (p + 1) ++ rep false (p + 1), 127 - ((p : Int) + 1)) := by
    rw [normFrac, idxOf_seq fb p hp hone hzeros]
  refine ⟨bexpPort (127 - (p + 1)), toInt_bexpPort _ (by omega) (by omega), ?_⟩
  rw [exec_normFrac_of_ne_zero (ne_zero_of_getMsbD hone), casePorts, hcase, vec_drop_seq_rep fb (by omega)]
  rfl

/-- Settles O24: the one row drives constants, the other the window's own bits (`vec_seq`). -/
theorem normZeroAndNormOneResults : Obligations.NormZeroAndNormOneResults := by
  intro fb s
  refine ⟨rfl, ?_⟩
  rw [exec_normOne_eq, casePorts, normOne, vec_seq]
  rfl

/-- Settles O25: `KW - 1` is the logarithm of INT, in whose terms `normInt_spec` says what NORM.INT gives. -/
theorem normIntTruncatesTheConcatenation : Obligations.NormIntTruncatesTheConcatenation := by
  intro int fb kw s hint hlo hhi
  have hkw : kw ≠ 0 := by
    rintro rfl
    omega
  have hlog : int.toNat.log2 = kw - 1 := log2_unique _ _ hlo (by rwa [Nat.sub_add_cancel (by omega)])
  have hlog64 := log2_toNat_lt int
  obtain ⟨hlen, hexp, hmant⟩ := normInt_spec int.toNat fb hint
  refine ⟨vec 23 (normInt int.toNat (seq fb)).1, bexpPort (normInt int.toNat (seq fb)).2, ?_, ?_,
    exec_normInt_of_two_le hint fb s⟩
  · rw [toNat_vec _ _ hlen, hmant, hlog]
  · rw [hexp, toInt_bexpPort _ (by omega) (by omega)]
    omega

/-! ### NORMALIZE -/

/-- Settles O26: the case row and NORMALIZE drive the ports of the same `normSelect`. -/
theorem normalizeRunsTheSelectedCase : Obligations.NormalizeRunsTheSelectedCase := by
  intro int fb i s hi
  obtain rfl : normCase int fb = i := Except.ok.inj ((decode_portsCommand int fb).symm.trans hi)
  exact ⟨casePorts (normSelect int.toNat (seq fb)), exec_normCase int fb s, exec_normalize_eq int fb s⟩

/-- Settles O27: `normSelect_spec` through the ports, whose ten bits hold every exponent `normalize_eq` allows. -/
theorem normalizeClosedForm : Obligations.NormalizeClosedForm := by
  intro int fb s
  obtain ⟨hlen, hzero, hpos⟩ := normSelect_spec int fb
  obtain ⟨-, hlo, hhi⟩ := normalize_eq int fb
  have hbexp := toInt_bexpPort _ (by omega : -512 ≤ (normSelect int.toNat (seq fb)).2) (by omega)
  refine ⟨vec 23 (normSelect int.toNat (seq fb)).1, bexpPort (normSelect int.toNat (seq fb)).2,
    exec_normalize_eq int fb s, ?_, ?_⟩
  · rw [toNat_vec _ _ hlen, hbexp]
    exact hzero
  · rw [toNat_vec _ _ hlen, hbexp]
    exact hpos

/-- Settles O28: in the closed form the exponent is `104 + ⌊log2 X⌋`, and the value of INT says between which
powers of two `X` lies. -/
theorem normalizeReachableResults : Obligations.NormalizeReachableResults := by
  intro int fb s
  obtain ⟨m, b, hexec, hzero, hpos⟩ := normalizeClosedForm int fb s
  have hfb := fb.isLt
  set x := int.toNat * 2 ^ 23 + fb.toNat with hx
  -- The exponent of an `X` from `2^lo` up and below `2^hi`.
  have hbexp {lo hi : Nat} (h1 : 2 ^ lo ≤ x) (h2 : x < 2 ^ hi) : 104 + lo ≤ b.toInt ∧ b.toInt < 104 + hi := by
    have h0 : x ≠ 0 := by have := Nat.two_pow_pos lo; omega
    obtain ⟨-, he, -⟩ := hpos x rfl h0
    have := (Nat.le_log2 h0).mpr h1
    have := (Nat.log2_lt h0).mpr h2
    omega
  refine ⟨m, b, hexec, fun hi hf => ?_, fun hi hf => ?_, fun hi => ?_, fun hi => ?_⟩
  · obtain ⟨-, he⟩ := hzero (by omega)
    exact he
  · have := hbexp (lo := 0) (hi := 23) (by omega) (by omega)
    omega
  · have := hbexp (lo := 23) (hi := 24) (by omega) (by omega)
    omega
  · have := int.isLt
    have := hbexp (lo := 24) (hi := 87) (by omega) (by omega)
    omega

/-! ### The range check and the exponent port -/

/-- NORM.RANGE used alone drives the outcome of the check and nothing else (R137). -/
theorem exec_normRange_eq (b : BitVec 10) (s : State) :
    exec (.normRange b) s = .next (s.drive { norm := { rangeErr := some (bexpOutOfRange b.toInt) } }) := by
  show execNormRange b s = _
  rw [execNormRange, normRange, bexpValue]
  cases bexpOutOfRange b.toInt <;> rfl

/-- Settles O29: `range_err` is the value of `bexpOutOfRange`. -/
theorem normRangeChecksTheExponent : Obligations.NormRangeChecksTheExponent := by
  intro b s
  rw [exec_normRange_eq]
  refine ⟨fun ⟨hlo, hhi⟩ => ?_, fun hout => ?_⟩
  · rw [bexpOutOfRange_eq_false _ hlo hhi]
    rfl
  · rw [bexpOutOfRange, decide_eq_true hout]
    rfl

theorem toNat_bexpPort (e : Int) : ((bexpPort e).toNat : Int) = e % 2 ^ 10 := by
  rw [bexpPort, BitVec.toNat_ofInt]
  omega

/-- The top bit of the port weighs `-2^9` (42_normalize.md R141). -/
theorem bexpValue_eq (b : BitVec 10) :
    bexpValue b = ((b.extractLsb' 0 9).toNat : Int) - 512 * ((b.getLsbD 9).toNat : Int) := by
  have hb := b.isLt
  rw [bexpValue, BitVec.toInt_eq_toNat_cond, BitVec.extractLsb'_toNat, Nat.shiftRight_zero, BitVec.getLsbD,
    Nat.toNat_testBit]
  split <;> omega

/-- Settles O30: `toNat_bexpPort`, `bexpValue_eq` and `toInt_bexpPort`; sign extension is the library's. -/
theorem bexpPortCarriesTheExponent : Obligations.BexpPortCarriesTheExponent :=
  ⟨toNat_bexpPort, bexpValue_eq, fun _ _ hn => BitVec.toInt_signExtend_of_le hn, toInt_bexpPort⟩

end Sys2Proof.Machine
end

section
/-! PACK: the outcome on every port input (43_pack.md R153, R154, R157) and the positions of the word it writes
(R151, R152, R154). -/

namespace Sys2Proof.Machine

/-! ### The checks -/

theorem pack_eq_ok {mlen : Nat} {bexp : Int} (h0 : 0 ≤ bexp) (h1 : bexp ≤ 255) (hl : mlen ≤ 23) (sign : Bool)
    (mant : Bits) : pack sign mant mlen bexp = .ok (packPositions sign mant mlen bexp.toNat) := by
  rw [pack, bexpOutOfRange_eq_false bexp h0 h1, if_neg Bool.false_ne_true, if_neg (Nat.not_lt.mpr hl)]

theorem pack_eq_error {mlen : Nat} {bexp : Int} (h : bexp < 0 ∨ 255 < bexp ∨ 23 < mlen) (sign : Bool)
    (mant : Bits) : pack sign mant mlen bexp = .error .rangeError := by
  rw [pack]
  by_cases hb : bexpOutOfRange bexp = true
  · rw [if_pos hb]
  · have hin : ¬(bexp < 0 ∨ 255 < bexp) := by simpa [bexpOutOfRange] using hb
    rw [if_neg hb, if_pos (show 23 < mlen by omega)]

theorem exec_pack_ok {sign : Bool} {mant : BitVec 23} {mlen : BitVec 5} {bexp : BitVec 10} {p : Bits}
    (h : pack sign (seq mant) mlen.toNat bexp.toInt = .ok p) (s : State) :
    exec (.pack sign mant mlen bexp) s =
      .next (s.drive { pack := { word := some (vec 32 p), rangeErr := some false } }) := by
  show execPack sign mant mlen bexp s = _
  rw [execPack, bexpValue, h]

theorem exec_pack_error {sign : Bool} {mant : BitVec 23} {mlen : BitVec 5} {bexp : BitVec 10} {e : ErrorKind}
    (h : pack sign (seq mant) mlen.toNat bexp.toInt = .error e) (s : State) :
    exec (.pack sign mant mlen bexp) s = .next (s.drive { pack := { word := none, rangeErr := some true } }) := by
  show execPack sign mant mlen bexp s = _
  rw [execPack, bexpValue, h]

/-- Settles O32: the two checks of `pack_eq_error`, whose raise drives `range_err` alone. -/
theorem packRejectsWhatDoesNotFit : Obligations.PackRejectsWhatDoesNotFit := fun sign mant _ _ s h =>
  exec_pack_error (pack_eq_error h sign (seq mant)) s

/-! ### The positions -/

theorem getElem?_bitsOfNat {n j : Nat} (hj : j < n) (x : Nat) :
    (bitsOfNat n x)[j]? = some (x / 2 ^ (n - 1 - j) % 2 == 1) := by
  simp [bitsOfNat, hj]

/-- A sequence cut to `k` bits and padded on the right with zeros keeps its first `k` bits. -/
theorem getElem?_take_seq_rep {n j : Nat} (hj : j < n) (v : BitVec n) {k : Nat} (hk : k ≤ n) :
    ((seq v).take k ++ rep false (n - k))[j]? = some (decide (j < k) && v.getMsbD j) := by
  have hlen : ((seq v).take k).length = k := by simp [hk]
  by_cases hjk : j < k
  · rw [List.getElem?_append_left (by omega), List.getElem?_take_of_lt hjk, getElem?_seq v j hj]
    simp [hjk]
  · rw [List.getElem?_append_right (by omega), hlen, rep, List.getElem?_replicate_of_lt (by omega)]
    simp [hjk]

section
variable (sign : Bool) (mant : BitVec 23) {mlen : Nat} (bexp : Nat)

theorem position_vec_packPositions (hl : mlen ≤ 23) {i : Nat} (hi : i < 32) :
    some (position (vec 32 (packPositions sign (seq mant) mlen bexp)) i) =
      (packPositions sign (seq mant) mlen bexp)[i]? :=
  getMsbD_vec 32 _ (length_packPositions sign _ (length_seq mant) mlen bexp hl) i hi

theorem position_pack_sign (hl : mlen ≤ 23) :
    position (vec 32 (packPositions sign (seq mant) mlen bexp)) 0 = sign :=
  Option.some.inj (position_vec_packPositions sign mant bexp hl (by decide))

theorem position_pack_exponent (hl : mlen ≤ 23) {j : Nat} (hj : j < 8) :
    position (vec 32 (packPositions sign (seq mant) mlen bexp)) (1 + j) = (bexp / 2 ^ (7 - j) % 2 == 1) := by
  apply Option.some.inj
  rw [position_vec_packPositions sign mant bexp hl (by omega), packPositions,
    List.getElem?_append_left (by simp; omega), List.getElem?_append_right (by simp), List.length_singleton,
    Nat.add_sub_cancel_left]
  exact getElem?_bitsOfNat hj bexp

theorem position_pack_mantissa (hl : mlen ≤ 23) {j : Nat} (hj : j < 23) :
    position (vec 32 (packPositions sign (seq mant) mlen bexp)) (9 + j) =
      (decide (j < mlen) && mant.getMsbD j) := by
  apply Option.some.inj
  have hlen : ([sign] ++ bitsOfNat Config.expW bexp).length = 9 := by simp
  rw [position_vec_packPositions sign mant bexp hl (by omega), packPositions,
    List.getElem?_append_right (by omega), hlen, Nat.add_sub_cancel_left]
  exact getElem?_take_seq_rep hj mant hl

end

/-- Settles O31: `pack_eq_ok`, the word read field by field, and `val2_packPositions` for its number. -/
theorem packWritesTheThreeFields : Obligations.PackWritesTheThreeFields := by
  intro sign mant mlen bexp s h0 h1 hl
  have hok := pack_eq_ok h0 h1 hl sign (seq mant)
  have hmsb : bexp.msb = false := by rw [BitVec.msb_eq_toInt, decide_eq_false (not_lt.mpr h0)]
  have hb := BitVec.toNat_toInt_of_msb bexp hmsb
  rw [hb] at hok
  refine ⟨_, exec_pack_ok hok s, position_pack_sign sign mant _ hl, fun _ => position_pack_exponent sign mant _ hl,
    fun _ => position_pack_mantissa sign mant _ hl, ?_⟩
  rw [toNat_vec _ _ (length_packPositions sign _ (length_seq mant) _ _ hl),
    val2_packPositions sign _ (length_seq mant) _ _ hl (by omega), val2_seq]

end Sys2Proof.Machine
end

section
/-! The transaction steps (44_convert.md R165 to R167): what each does where it is enabled, and when it is
refused. -/

namespace Sys2Proof.Machine

/-! ### The text and the response, after each step -/

@[simp] theorem State.request_handOver (s : State) (t : Text) : (s.handOver t).request = some t :=
  Memory.readRange_writeRange s.text 0 t

@[simp] theorem State.request_publish (s : State) (r : Response) : (s.publish r).request = s.request := rfl

/-- What COMPLETE publishes is what READ finds. -/
@[simp] theorem State.response_publish (s : State) (r : Response) : (s.publish r).response = some r := by
  obtain w | (_ | _) := r <;> rfl

theorem State.response_of_ok {s : State} {w : BitVec 32} (hs : s.status = some .ok) (hp : s.p = some w) :
    s.response = some (.ok w) := by
  rw [State.response, hs, hp]

/-- Under an error kind the response is that kind, whatever `P` holds. -/
theorem State.response_of_error {s : State} {k : ErrorKind} (hs : s.status = some k.status) :
    s.response = some (.error k) := by
  cases k <;> simp only [State.response, hs, ErrorKind.status]

/-! ### The steps where they are enabled -/

theorem exec_start_of_idle {t : Text} {s : State} (hb : s.busy = some false) (hl : t.length ≤ Config.textMax) :
    exec (.start t) s = .next (s.handOver t) := by
  show execStart t s = _
  simp only [execStart, hb, if_pos hl]

theorem exec_complete_of_request {s : State} {t : Text} (hb : s.busy = some true) (hr : s.request = some t) :
    exec .complete s = .next (s.publish (convert t)) := by
  show execComplete s = _
  simp only [execComplete, hb, hr]

theorem exec_read_of_response {s : State} {r : Response} (hv : s.rspValid = some true)
    (hr : s.response = some r) : exec .read s = .next (s.deliver r) := by
  show execRead s = _
  simp only [execRead, hv, hr]

theorem runAll_cons_of_next {i : Instr} {s s' : State} (h : exec i s = .next s') (is : List Instr) :
    runAll (i :: is) s = runAll is s' := by
  simp only [runAll, h]

/-- With nothing scheduled the block completes the transaction in flight (log entry 1). -/
theorem step_eq_complete_of_unscheduled {s : State} (hs : s.script = []) (hb : s.busy = some true) :
    step s = exec .complete s := by
  show _ = execComplete s
  simp only [step, hs, idleStep, if_pos hb]

/-- Settles O39: `State.handOver`, whose buffer is the old one with the text written from cell 0 on. -/
theorem startBeginsATransaction : Obligations.StartBeginsATransaction := fun t s hb hl =>
  ⟨Memory.writeRange s.text 0 t, exec_start_of_idle hb hl,
    fun i hi => by simpa only [Nat.zero_add] using Memory.read_writeRange s.text 0 t i hi,
    fun i hi => Memory.read_writeRange_other s.text 0 t i (.inr (by omega))⟩

/-- Settles O41: the cells below LEN make up the text that is converted, and each outcome has its status and its
word. -/
theorem completePublishesTheConversion : Obligations.CompletePublishesTheConversion := by
  intro s
  refine ⟨fun hb => ?_, fun n t hb hn ht hread => ?_⟩
  · show execComplete s = _
    simp only [execComplete, hb]
  · subst ht
    have hx := exec_complete_of_request hb (State.request_eq.mpr ⟨hn, hread⟩)
    refine ⟨fun w hc => ?_, fun hc => ?_, fun hc => ?_⟩
    all_goals
      rw [hx, hc]
      rfl

/-- Settles O46: each of the three steps leaves what the next one needs. -/
theorem transactionDeliversTheConversion : Obligations.TransactionDeliversTheConversion := by
  intro t s hb hl
  have hstart : exec (.start t) s = .next (s.handOver t) := exec_start_of_idle hb hl
  have hcomplete := exec_complete_of_request (State.handOver_busy s t) (State.request_handOver s t)
  have hread := exec_read_of_response (State.publish_rspValid (s.handOver t) (convert t))
    (State.response_publish _ _)
  refine ⟨((s.handOver t).publish (convert t)).deliver (convert t), ?_, rfl, rfl, rfl⟩
  rw [runAll_cons_of_next hstart, runAll_cons_of_next hcomplete, runAll_cons_of_next hread]
  rfl

/-- Settles O49: the invariant keeps the text of the transaction in flight readable. -/
theorem everyStartedTransactionCompletes : Obligations.EveryStartedTransactionCompletes := by
  intro s hinv hb
  obtain ⟨t, hr, -⟩ := hinv.requestHeld (.inl hb)
  have hx := exec_complete_of_request hb hr
  exact ⟨_, hx, rfl, rfl, fun hs => (step_eq_complete_of_unscheduled hs hb).trans hx⟩

/-- Settles O42: the response the host gets is read off the status, and off `P` under OK. -/
theorem readReturnsTheResponse : Obligations.ReadReturnsTheResponse := fun _ _ hv =>
  ⟨fun hs hp => exec_read_of_response hv (State.response_of_ok hs hp),
    fun hs => exec_read_of_response hv (State.response_of_error (k := .parseError) hs),
    fun hs => exec_read_of_response hv (State.response_of_error (k := .rangeError) hs)⟩

/-! ### CONVERT used alone, and the refusals -/

/-- Settles O33: the two branches of the length test of R160. -/
theorem convertDeliversTheOutcome : Obligations.ConvertDeliversTheOutcome := fun _ _ =>
  ⟨fun hl => if_pos hl, fun hl => if_neg (Nat.not_le.mpr hl)⟩

/-- Settles O40: BUSY is looked at first, the length of the text only when the block is idle. -/
theorem startIsRefusedWhenNotEnabled : Obligations.StartIsRefusedWhenNotEnabled := by
  intro t s
  show (_ → execStart t s = _) ∧ (_ → _ → execStart t s = _)
  refine ⟨fun hb => ?_, fun hb hl => ?_⟩
  · simp only [execStart, hb]
  · simp only [execStart, hb, if_neg (Nat.not_le.mpr hl)]

/-- Settles O43: RSP_VALID is the first thing READ looks at. -/
theorem readIsRefusedWithoutAResponse : Obligations.ReadIsRefusedWithoutAResponse := by
  intro s hv
  show execRead s = _
  simp only [execRead, hv]

end Sys2Proof.Machine
end

section
/-! The protocol invariant (44_convert.md R168): it holds at reset and before it, and each kind of effect that
`exec_cases` allows a row keeps it. -/

namespace Sys2Proof.Machine

/-- The invariant speaks of the interface state alone, not of the ports, the decoder's context, the host's side or
the schedule. -/
theorem State.Inv.of_interface {s : State} (h : s.Inv) (o : Ports) (x : Scan) (y : HostView) (c : List Command) :
    State.Inv { s with ports := o, scan := x, host := y, script := c } where
  textWf := h.textWf
  textInRange := h.textInRange
  bothOrNeither := h.bothOrNeither
  notBoth := h.notBoth
  requestHeld := h.requestHeld
  noResponse := h.noResponse
  responseOf := h.responseOf

theorem State.Inv.pop {s : State} (h : s.Inv) : s.pop.Inv := h.of_interface s.ports s.scan s.host s.script.tail

theorem State.Inv.drive {s : State} (h : s.Inv) (o : Ports) : (s.drive o).Inv :=
  h.of_interface o s.scan s.host s.script

/-- With no text handed over and no response, in an empty buffer, only the two bits are left to look at. -/
theorem State.inv_of_empty {s : State} (ht : s.text = []) (hb : s.busy ≠ some true) (hv : s.rspValid ≠ some true)
    (hbv : s.busy = none ↔ s.rspValid = none) (hs : s.status = none) (hp : s.p = none) : s.Inv where
  textWf := by rw [ht]; rfl
  textInRange := by simp [ht]
  bothOrNeither := hbv
  notBoth := fun h => hb h.1
  requestHeld := fun h => absurd h (not_or.mpr ⟨hb, hv⟩)
  noResponse := fun _ => ⟨hs, hp⟩
  responseOf := fun h => absurd h hv

theorem State.reset_inv : State.reset.Inv :=
  State.inv_of_empty rfl (by decide) (by decide) (by decide) rfl rfl

theorem State.powerOn_inv : State.powerOn.Inv :=
  State.inv_of_empty rfl (by decide) (by decide) (by decide) rfl rfl

/-- Settles O51: the buffer is empty in both states, and neither bit is 1. -/
theorem invariantAtResetAndPowerOn : Obligations.InvariantAtResetAndPowerOn :=
  ⟨State.reset_inv, State.powerOn_inv⟩

theorem State.clear_inv (s : State) : s.clear.Inv := State.reset_inv.of_interface {} _ s.host s.script

/-- START: the text lies in the cells below its length, and the previous response is gone. -/
theorem State.Inv.handOver {s : State} (h : s.Inv) {t : Text} (hl : t.length ≤ Config.textMax) :
    (s.handOver t).Inv where
  textWf := Memory.wf_writeRange s.text 0 t h.textWf
  textInRange := by
    intro c hc
    obtain ⟨-, hlt⟩ | hold := Memory.mem_writeRange hc
    · omega
    · exact h.textInRange c hold
  bothOrNeither := by simp
  notBoth := by simp
  requestHeld := fun _ => ⟨t, State.request_handOver s t, hl⟩
  noResponse := fun _ => ⟨rfl, rfl⟩
  responseOf := by simp

/-- COMPLETE: the text stays where it is, and the response is its conversion. -/
theorem State.Inv.publish {s : State} (h : s.Inv) (hb : s.busy = some true) {t : Text}
    (hr : s.request = some t) : (s.publish (convert t)).Inv where
  textWf := h.textWf
  textInRange := h.textInRange
  bothOrNeither := by simp
  notBoth := by simp
  requestHeld := fun _ => h.requestHeld (.inl hb)
  noResponse := fun hv => absurd rfl hv
  responseOf := by
    intro _ u hu
    obtain rfl : t = u := Option.some.inj (hr.symm.trans hu)
    exact ⟨rfl, rfl⟩

/-- Every row that completes keeps the invariant. -/
theorem State.Inv.exec {s t : State} {i : Instr} (h : s.Inv) (hx : exec i s = .next t) : t.Inv := by
  obtain ⟨hi, -⟩ | ⟨x, -, -, hl, rfl⟩ | ⟨x, -, hb, hr, rfl⟩ | ⟨-, rfl⟩ := exec_cases hx
  case inl =>
    obtain ⟨o, x, y, rfl⟩ := exec_next_of_not_writesInterface hi hx
    exact h.of_interface o x y s.script
  case inr.inl => exact h.handOver hl
  case inr.inr.inl => exact h.publish hb hr
  case inr.inr.inr => exact s.clear_inv

/-- Settles O50: a step is a row run on the popped schedule, COMPLETE taken by the block itself, or an idle step that
drives no port. -/
theorem stepKeepsTheProtocolInvariant : Obligations.StepKeepsTheProtocolInvariant := by
  intro s t h hstep
  obtain ⟨c, rest, i, -, -, hx⟩ | ⟨-, -, hx⟩ | ⟨-, -, rfl⟩ := step_cases hstep
  · exact h.pop.exec hx
  · exact h.exec hx
  · exact h.drive {}

end Sys2Proof.Machine
end

section
/-! CONVERT against the exact value (44_convert.md R162, R163): the window is the magnitude cut to 23 binary places,
and the result is the window cut to 24 significant bits, with the sign of the value. -/

namespace Sys2Proof.Machine

/-! ### The magnitude and its window -/

theorem Numeral.magnitude_nonneg (n : Numeral) : 0 ≤ n.magnitude := by
  unfold Numeral.magnitude
  positivity

theorem Numeral.magnitude_eq_zero_iff (n : Numeral) :
    n.magnitude = 0 ↔ numVal n.int = 0 ∧ numVal n.frac = 0 := by
  have hint : (0 : ℚ) ≤ numVal n.int := by positivity
  have hfrac : (0 : ℚ) ≤ numVal n.frac / 10 ^ n.frac.length := by positivity
  rw [Numeral.magnitude, add_eq_zero_iff_of_nonneg hint hfrac]
  simp

theorem Numeral.negative_iff (n : Numeral) : n.negative = true ↔ n.minus = true ∧ n.magnitude ≠ 0 := by
  simp only [Numeral.negative, ne_eq, n.magnitude_eq_zero_iff, Bool.and_eq_true, decide_eq_true_eq,
    not_and_or]

/-- `X` is the exact magnitude, in units of `2^-23`, cut to an integer (44_convert.md R162). -/
theorem Numeral.window_eq_floor (n : Numeral) : (n.window : ℤ) = ⌊n.magnitude * 2 ^ 23⌋ := by
  have hsplit : n.magnitude * 2 ^ 23 = (numVal n.int * 2 ^ 23 : ℕ) +
      ((numVal n.frac * 2 ^ 23 : ℕ) : ℚ) / (10 ^ n.frac.length : ℕ) := by
    push_cast [Numeral.magnitude]
    ring
  rw [hsplit, Int.floor_natCast_add, Rat.floor_natCast_div_natCast, Numeral.window]
  push_cast
  rfl

theorem Numeral.window_le (n : Numeral) : (n.window : ℚ) ≤ n.magnitude * 2 ^ 23 := by
  have h : ((n.window : ℤ) : ℚ) ≤ n.magnitude * 2 ^ 23 := Int.le_floor.mp n.window_eq_floor.le
  exact_mod_cast h

theorem Numeral.lt_of_window_lt {n : Numeral} {y : ℕ} (h : n.window < y) : n.magnitude * 2 ^ 23 < y := by
  have hf : ⌊n.magnitude * 2 ^ 23⌋ < (y : ℤ) := by
    rw [← n.window_eq_floor]
    exact_mod_cast h
  exact_mod_cast Int.floor_lt.mp hf

/-- Settles O34: `convert_numeral_ok` for the word, `window_eq_floor` and `negative_iff` for what `X` and `SIGN`
are. -/
theorem convertClosedForm : Obligations.ConvertClosedForm := fun n hn =>
  ⟨convert_numeral_ok hn, n.window_eq_floor, n.negative_iff⟩

/-- The integer part is what the window has above its 23 binary places. -/
theorem window_div {n : Numeral} (h : n.Grammar) : n.window / 2 ^ 23 = numVal n.int := by
  have hle := le_window n
  have hlt := window_lt h
  omega

/-- Settles O38: sign, window and integer part are functions of the marker and the magnitude, and the outcome
of a text of the grammar is a function of these three. -/
theorem convertDependsOnTheValue : Obligations.ConvertDependsOnTheValue := by
  intro n m hn hm hminus hmag
  have hneg : n.negative = m.negative := by
    rw [Bool.eq_iff_iff, n.negative_iff, m.negative_iff, hminus, hmag]
  have hwin : n.window = m.window := by
    have h : (n.window : ℤ) = m.window := by rw [n.window_eq_floor, m.window_eq_floor, hmag]
    exact_mod_cast h
  have hint : numVal n.int = numVal m.int := by rw [← window_div hn, ← window_div hm, hwin]
  by_cases hw : 2 ^ 64 ≤ numVal n.int
  · rw [convert_numeral_wide hn hw, convert_numeral_wide hm (hint ▸ hw)]
  · obtain ⟨w, hc, hword⟩ := convert_numeral_ok hn (by omega)
    obtain ⟨w', hc', hword'⟩ := convert_numeral_ok hm (by omega)
    have : w = w' := BitVec.eq_of_toNat_eq (by rw [hword, hword', hneg, hwin])
    rw [hc, hc', this]

/-! ### The value of the result -/

/-- A number with its 24 leading bits kept and the lower ones cleared. -/
def cut24 (x : Nat) : Nat :=
  if 23 ≤ x.log2 then x / 2 ^ (x.log2 - 23) * 2 ^ (x.log2 - 23) else x

theorem cut24_le (x : Nat) : cut24 x ≤ x := by
  unfold cut24
  split
  · exact Nat.div_mul_le_self _ _
  · exact le_rfl

/-- A number of at most 23 bits is kept whole. -/
theorem cut24_of_lt {x : Nat} (h : x < 2 ^ 23) : cut24 x = x := by
  refine if_neg fun hl => ?_
  have h0 : x ≠ 0 := by rintro rfl; simp at hl
  exact absurd ((Nat.le_log2 h0).mp hl) (by omega)

/-- What is cleared is less than one unit of the lowest bit kept. -/
theorem lt_cut24_add {x : Nat} (h : 23 ≤ x.log2) : x < cut24 x + 2 ^ (x.log2 - 23) := by
  rw [cut24, if_pos h]
  exact Nat.lt_div_mul_add (Nat.two_pow_pos _)

/-! The mantissa is what the number has below its leading 1, so with that 1 put back it is the number's leading bits
(42_normalize.md R139). -/

theorem mantissaOf_add_of_le {x : Nat} (h0 : x ≠ 0) (h : 23 ≤ x.log2) :
    mantissaOf x + 2 ^ 23 = x / 2 ^ (x.log2 - 23) := by
  rw [mantissaOf, if_pos h]
  refine Nat.sub_add_cancel ((Nat.le_div_iff_mul_le (Nat.two_pow_pos _)).mpr ?_)
  rw [← Nat.pow_add, Nat.add_sub_cancel' h]
  exact Nat.log2_self_le h0

theorem mantissaOf_add_of_lt {x : Nat} (h0 : x ≠ 0) (h : x.log2 < 23) :
    mantissaOf x + 2 ^ 23 = x * 2 ^ (23 - x.log2) := by
  rw [mantissaOf, if_neg (by omega)]
  refine Nat.sub_add_cancel ?_
  calc 2 ^ 23 = 2 ^ x.log2 * 2 ^ (23 - x.log2) := by rw [← Nat.pow_add, Nat.add_sub_cancel' h.le]
    _ ≤ x * 2 ^ (23 - x.log2) := Nat.mul_le_mul_right _ (Nat.log2_self_le h0)

/-- The value of the exponent and mantissa fields (30_encoding.md R79) is the number cut, in units of `2^-23`. -/
theorem fields_value_eq_cut24 {x : Nat} (h0 : x ≠ 0) :
    (1 + (mantissaOf x : ℚ) / 2 ^ 23) * 2 ^ (((104 + x.log2 : ℕ) : ℤ) - 127) = cut24 x / 2 ^ 23 := by
  have hsum : 1 + (mantissaOf x : ℚ) / 2 ^ 23 = ((mantissaOf x + 2 ^ 23 : ℕ) : ℚ) / 2 ^ 23 := by
    push_cast
    ring
  by_cases h : 23 ≤ x.log2
  · have he : ((104 + x.log2 : ℕ) : ℤ) - 127 = (x.log2 - 23 : ℕ) := by omega
    rw [hsum, mantissaOf_add_of_le h0 h, he, zpow_natCast, cut24, if_pos h]
    push_cast
    ring
  · have he : ((104 + x.log2 : ℕ) : ℤ) - 127 = -(23 - x.log2 : ℕ) := by omega
    rw [hsum, mantissaOf_add_of_lt h0 (by omega), he, zpow_neg, zpow_natCast, cut24, if_neg h]
    push_cast
    field_simp

theorem position_sign_eq (w : BitVec 32) : position w Config.signPos = decide (2 ^ 31 ≤ w.toNat) :=
  BitVec.msb_eq_decide w

theorem position_sign_of_wordOf {w : BitVec 32} {sign : Bool} {x : Nat} (hx : x < 2 ^ 87)
    (hw : w.toNat = wordOf sign x) : position w Config.signPos = sign := by
  have hrest : ∃ r < 2 ^ 31, w.toNat = sign.toNat * 2 ^ 31 + r := by
    by_cases h0 : x = 0
    · exact ⟨0, by decide, by rw [hw, wordOf, if_pos h0, Nat.add_zero]⟩
    · have hl : x.log2 < 87 := (Nat.log2_lt h0).mpr hx
      have hm := mantissaOf_lt x
      exact ⟨(104 + x.log2) * 2 ^ 23 + mantissaOf x, by omega, by rw [hw, wordOf, if_neg h0, Nat.add_assoc]⟩
  obtain ⟨r, hr, hsum⟩ := hrest
  rw [position_sign_eq, hsum]
  cases sign
  · exact decide_eq_false (by rw [Bool.toNat_false]; omega)
  · exact decide_eq_true (by rw [Bool.toNat_true]; omega)

/-- The sign of a result as a factor (30_encoding.md R79). -/
def signFactor (sign : Bool) : ℚ := if sign then -1 else 1

/-- The result stands for its window cut to 24 significant bits, with its sign. -/
theorem f32Value_of_wordOf {w : BitVec 32} {sign : Bool} {x : Nat} (hx : x < 2 ^ 87)
    (hw : w.toNat = wordOf sign x) : f32Value w = some (signFactor sign * (cut24 x / 2 ^ 23)) := by
  by_cases h0 : x = 0
  · subst h0
    obtain ⟨he, hm⟩ := fields_of_wordOf_zero hw
    have hcut : cut24 0 = 0 := cut24_of_lt (by decide)
    simp [f32Value, he, hm, hcut]
  · obtain ⟨he, hm⟩ := fields_of_wordOf h0 hx hw
    have hl : x.log2 < 87 := (Nat.log2_lt h0).mpr hx
    have hnormal : 1 ≤ 104 + x.log2 ∧ 104 + x.log2 ≤ 254 := by omega
    simp only [f32Value, he, hm, position_sign_of_wordOf hx hw, if_pos hnormal]
    rw [mul_assoc, fields_value_eq_cut24 h0]
    rfl

theorem signFactor_mul (sign : Bool) (r : ℚ) : signFactor sign * r = if sign then -r else r := by
  cases sign <;> simp [signFactor]

theorem abs_signFactor_mul (sign : Bool) {r : ℚ} (hr : 0 ≤ r) : |signFactor sign * r| = r := by
  rw [signFactor_mul]
  cases sign <;> simpa using hr

/-- Settles O37: the magnitude of the result is `cut24` of the window, and the window that of the exact value. -/
theorem convertTruncatesTowardZero : Obligations.ConvertTruncatesTowardZero := by
  intro n hn hint
  obtain ⟨w, hc, hw⟩ := convert_numeral_ok hn hint
  have hlt := window_lt hn
  have hle := le_window n
  have hx : n.window < 2 ^ 87 := by omega
  have habs := abs_signFactor_mul n.negative (r := (cut24 n.window : ℚ) / 2 ^ 23) (by positivity)
  refine ⟨w, _, hc, f32Value_of_wordOf hx hw, ?_, ?_, fun hi => ?_, fun hi => ?_⟩
  · rw [habs, signFactor_mul]
  · rw [habs, div_le_iff₀ (by norm_num)]
    calc (cut24 n.window : ℚ) ≤ n.window := by exact_mod_cast cut24_le n.window
      _ ≤ n.magnitude * 2 ^ 23 := n.window_le
  · have hfloor : ((n.magnitude * 2 ^ 23).floor : ℚ) = n.window := by
      rw [← Int.cast_natCast, n.window_eq_floor]
      rfl
    rw [habs, cut24_of_lt (by omega), hfloor]
  · have h0 : n.window ≠ 0 := by omega
    have hl : 23 ≤ n.window.log2 := (Nat.le_log2 h0).mpr (by omega)
    obtain ⟨he, -⟩ := fields_of_wordOf h0 hx hw
    have hunit : (2 : ℚ) ^ ((exponentField w : ℤ) - 150) = 2 ^ (n.window.log2 - 23) / 2 ^ 23 := by
      have hexp : (exponentField w : ℤ) - 150 = (n.window.log2 - 23 : ℕ) - (23 : ℕ) := by omega
      rw [hexp, zpow_sub₀ (by norm_num), zpow_natCast, zpow_natCast]
    rw [habs, hunit, ← add_div, lt_div_iff₀ (by norm_num)]
    exact_mod_cast Numeral.lt_of_window_lt (lt_cut24_add hl)

end Sys2Proof.Machine
end

section
/-! Errors and faults (60_exceptions.md R187, R197): after an error the block is as ready as after a result, and a
text that is in the buffer shuts out the one fault the model has. -/

namespace Sys2Proof.Machine

/-- Settles O48: COMPLETE publishes whatever `convert` gives, an error kind too, and the state it leaves is idle, which
is all that START asks for. -/
theorem errorsLeaveTheBlockReady : Obligations.ErrorsLeaveTheBlockReady := by
  intro t t' s hb hr hl
  have hidle : (s.publish (convert t)).busy = some false := State.publish_busy s _
  exact ⟨_, _, exec_complete_of_request hb hr, hidle, exec_start_of_idle hidle hl,
    State.handOver_busy _ t', State.request_handOver _ t'⟩

/-- Wherever a step stops with a fault, it is a row that does so: the one decoded from the schedule, or COMPLETE taken
by the block itself. -/
theorem exec_fault_of_step_fault {s : State} {r : Fault} (h : step s = .fault r) :
    ∃ i, exec i s.pop = .fault r ∨ exec i s = .fault r := by
  unfold step at h
  split at h
  · unfold idleStep at h
    split at h
    · exact ⟨.complete, .inr h⟩
    · cases h
  · split at h
    · cases h
    · next i _ => exact ⟨i, .inl h⟩

/-- The invariant keeps the text of the transaction in flight in the buffer, and its absence is all that a row can
stop at. -/
theorem State.Inv.exec_ne_fault {s : State} (h : s.Inv) (i : Instr) (r : Fault) :
    Machine.exec i s ≠ .fault r := by
  intro hx
  obtain ⟨-, hb, hnone⟩ := exec_fault hx
  obtain ⟨t, ht, -⟩ := h.requestHeld (.inl hb)
  cases hnone.symm.trans ht

/-- Settles O52: taking a command off the schedule keeps the invariant, so no row that a step runs can fault. -/
theorem noFaultUnderTheInvariant : Obligations.NoFaultUnderTheInvariant := by
  intro s h r hstep
  obtain ⟨i, hx | hx⟩ := exec_fault_of_step_fault hstep
  · exact h.pop.exec_ne_fault i r hx
  · exact h.exec_ne_fault i r hx

end Sys2Proof.Machine
end

section
/-! RESET, and what no other row may do (70_reset_and_hazards.md R210 to R214, R218): RESET leaves the block idle and
the buffer empty, and until it comes the text of the transaction in flight stays as START wrote it. -/

namespace Sys2Proof.Machine

/-- RESET is enabled in every state (R210). -/
theorem exec_reset (s : State) : exec .reset s = .next s.clear := rfl

theorem State.read_clear_text (s : State) (i : Nat) : Memory.read s.clear.text i = none := Memory.read_nil i

theorem runAll_cons_of_refused {i : Instr} {s : State} {r : Refusal} (h : exec i s = .refused r) (is : List Instr) :
    runAll (i :: is) s = .refused r := by
  simp only [runAll, h]

/-- Settles O47: what RESET leaves is `State.clear`, idle and without a response, so COMPLETE and READ are refused
there and START is not; and the response is `convert` of the text, whatever else the state holds. -/
theorem resetAbandonsTheTransaction : Obligations.ResetAbandonsTheTransaction := by
  intro t s hb hr hl
  have hidle : s.clear.busy = some false := State.clear_busy s
  have hnoRsp : s.clear.rspValid = some false := State.clear_rspValid s
  have hstart : exec (.start t) s.clear = .next (s.clear.handOver t) := exec_start_of_idle hidle hl
  have hcomplete := exec_complete_of_request (State.handOver_busy s.clear t) (State.request_handOver s.clear t)
  refine ⟨?_, ?_, ⟨_, exec_reset s, s.read_clear_text⟩,
    s.publish (convert t), (s.clear.handOver t).publish (convert t), exec_complete_of_request hb hr, ?_,
    rfl, rfl, rfl, rfl⟩
  · rw [runAll_cons_of_next (exec_reset s)]
    exact runAll_cons_of_refused ((completePublishesTheConversion s.clear).1 hidle) []
  · rw [runAll_cons_of_next (exec_reset s)]
    exact runAll_cons_of_refused (readIsRefusedWithoutAResponse s.clear hnoRsp) []
  · rw [runAll_cons_of_next (exec_reset s), runAll_cons_of_next hstart, runAll_cons_of_next hcomplete]
    rfl

/-- Settles O56: START, the only other row that writes the text, needs BUSY = 0. -/
theorem textIsStableWhileBusy : Obligations.TextIsStableWhileBusy := by
  intro i s t hb hi h
  obtain ⟨hw, -⟩ | ⟨x, -, hidle, -⟩ | ⟨x, -, -, -, rfl⟩ | ⟨hreset, -⟩ := exec_cases h
  case inl =>
    obtain ⟨htext, hlen, -⟩ := otherRowsLeaveTheInterface i s t hw h
    exact ⟨htext, hlen⟩
  case inr.inl => cases hb.symm.trans hidle
  case inr.inr.inl => exact ⟨State.publish_text s _, State.publish_len s _⟩
  case inr.inr.inr => exact absurd hreset hi

/-- With nothing scheduled and no transaction in flight the step drives no port and changes nothing else. -/
theorem step_eq_drive_of_unscheduled {s : State} (hs : s.script = []) (hb : s.busy ≠ some true) :
    step s = .next (s.drive {}) := by
  simp only [step, hs, idleStep, if_neg hb]

/-- Settles O8: the two cases of a step with nothing scheduled. -/
theorem stepWithNothingScheduled : Obligations.StepWithNothingScheduled := fun _ hs =>
  ⟨step_eq_complete_of_unscheduled hs, step_eq_drive_of_unscheduled hs⟩

/-- Settles O44: each field of `State.clear`. -/
theorem resetMakesTheBlockIdle : Obligations.ResetMakesTheBlockIdle := fun s =>
  ⟨s.clear, exec_reset s, s.clear_busy, s.clear_rspValid, s.clear_status, s.clear_p, s.clear_len, s.read_clear_text,
    s.clear_ports, s.clear_scan, s.clear_host, s.clear_script⟩

/-- Settles O45: START and COMPLETE look at BUSY first, READ at RSP_VALID, and RESET at neither. -/
theorem beforeResetOnlyResetRuns : Obligations.BeforeResetOnlyResetRuns := by
  intro t s hb hv
  refine ⟨?_, ?_, ?_, s.clear, exec_reset s, s.clear_busy⟩
  · show execStart t s = _
    simp only [execStart, hb]
  · show execComplete s = _
    simp only [execComplete, hb]
  · show execRead s = _
    simp only [execRead, hv]

end Sys2Proof.Machine
end
